-- ==== Sys2Proof/Word.lean ====
section
/-! DEFINITION. The word types of THE CORE: register bytes, 16-bit addresses and instruction words, and the fields
an instruction word is cut into (00_scope.md R8, R9; 30_encoding.md R81). All values are unsigned (R10). -/

namespace Sys2Proof

/-- An 8-bit value: a general register, a timer, a memory byte, the immediate `nn` (R8, R81). -/
abbrev Byte := BitVec 8

/-- A 16-bit value: the program counter, the index register, a stack entry, an instruction word (R8). -/
abbrev Word := BitVec 16

/-- A 4-bit value: the fields `op`, `x`, `y`, `n` (R81); a register index or a key identifier (R20, R32). -/
abbrev Nibble := BitVec 4

/-- The 12-bit immediate address `nnn` (R81). -/
abbrev Imm12 := BitVec 12

end Sys2Proof
end

