-- ==== Sys2Proof/Machine/Flags.lean ====
section
/-! DEFINITION. The values the flag register VF takes (10_state.md R22; 40_alu.md R101 to R103; 41_display.md R133). -/

namespace Sys2Proof.Machine

/-- A flag as the byte written to VF: 1 or 0 (R22). -/
def flagByte (b : Bool) : Byte := if b then 1 else 0

/-- The carry of 8xy4: the unbounded sum exceeds 255 (R101). -/
def carryFlag (a b : Byte) : Bool := decide (255 < a.toNat + b.toNat)

/-- The flag of 8xy5 and 8xy7: the minuend is strictly greater than the subtrahend (R102). -/
def greaterFlag (minuend subtrahend : Byte) : Bool := decide (subtrahend.toNat < minuend.toNat)

/-- The bit 8xy6 shifts out: bit 0 before the shift (R103, R113). -/
def lowBitFlag (a : Byte) : Bool := a.getLsbD 0

/-- The bit 8xyE shifts out: bit 7 before the shift (R103, R115). -/
def highBitFlag (a : Byte) : Bool := a.getLsbD 7

end Sys2Proof.Machine
end

