-- ==== Sys2Proof/Config.lean ====
section
/-! DEFINITION. The parameters of THE CORE, each with the value of 00_scope.md R8; the glyph bytes (20_memory.md R53);
and the free values: the random byte of Cxnn (40_alu.md R118) and the display before the first reset (10_state.md
R42). -/

namespace Sys2Proof

/-- `REG_WIDTH` (R8): bits of a general register. -/
@[simp] abbrev Config.regWidth : Nat := 8
/-- `PC_WIDTH` (R8): bits of the program counter. -/
@[simp] abbrev Config.pcWidth : Nat := 16
/-- `I_WIDTH` (R8): bits of the index register. -/
@[simp] abbrev Config.iWidth : Nat := 16
/-- `STACK_ENTRY_WIDTH` (R8): bits of a stack entry, which holds a program-counter value. -/
@[simp] abbrev Config.stackEntryWidth : Nat := Config.pcWidth
/-- `TIMER_WIDTH` (R8): bits of DT and of ST. -/
@[simp] abbrev Config.timerWidth : Nat := 8
/-- `INSN_WIDTH` (R8): bits of an instruction word. -/
@[simp] abbrev Config.insnWidth : Nat := 16
/-- `CYCLE_RATE` (R8): about this many cycles a second; timing only, read by no definition (R257; log 27). -/
@[simp] abbrev Config.cycleRate : Nat := 700

/-- `MEM_SIZE` (R8): addresses 0x000 to 0xFFF. -/
@[simp] abbrev Config.memSize : Nat := 4096
/-- `GLYPH_BASE` (R8). -/
@[simp] abbrev Config.glyphBase : Nat := 0x050
/-- `GLYPH_END` (R8), inclusive. -/
@[simp] abbrev Config.glyphEnd : Nat := 0x09F
/-- `GLYPH_STRIDE` (R8): bytes per glyph. -/
@[simp] abbrev Config.glyphStride : Nat := 5
/-- `PROG_BASE` (R8): where `load` places a program, and the reset value of pc. -/
@[simp] abbrev Config.progBase : Nat := 0x200
/-- `PROG_CAPACITY` (R8): `MEM_SIZE - PROG_BASE`, 3584 bytes. -/
@[simp] abbrev Config.progCapacity : Nat := Config.memSize - Config.progBase
/-- `NREGS` (R8). -/
@[simp] abbrev Config.nRegs : Nat := 16
/-- `STACK_DEPTH` (R8). -/
@[simp] abbrev Config.stackDepth : Nat := 32
/-- `DISP_W` (R8). -/
@[simp] abbrev Config.dispW : Nat := 64
/-- `DISP_H` (R8). -/
@[simp] abbrev Config.dispH : Nat := 32
/-- `NKEYS` (R8). -/
@[simp] abbrev Config.nKeys : Nat := 16

/-- A `Byte` is a value of the registers' width, and of the timers'. -/
theorem Config.byte_width : Byte = BitVec Config.regWidth ∧ Byte = BitVec Config.timerWidth := ⟨rfl, rfl⟩

/-- A `Word` is a value of the widths of an instruction word, the program counter, the index register and a stack
entry. -/
theorem Config.word_width : Word = BitVec Config.insnWidth ∧ Word = BitVec Config.pcWidth ∧ Word = BitVec Config.iWidth ∧
    Word = BitVec Config.stackEntryWidth := ⟨rfl, rfl, rfl, rfl⟩

/-- `GLYPHS`, one glyph of five bytes a row, top row of the glyph first: the spec's default of R53.
PRESUMED (log 3, unsafe for a claim about a glyph's pixels): the spec itself takes these bytes from general knowledge. -/
def Config.glyphRows : List (List (Byte)) :=
  [[0xF0, 0x90, 0x90, 0x90, 0xF0], [0x20, 0x60, 0x20, 0x20, 0x70],
   [0xF0, 0x10, 0xF0, 0x80, 0xF0], [0xF0, 0x10, 0xF0, 0x10, 0xF0]] ++
  [[0x90, 0x90, 0xF0, 0x10, 0x10], [0xF0, 0x80, 0xF0, 0x10, 0xF0],
   [0xF0, 0x80, 0xF0, 0x90, 0xF0], [0xF0, 0x10, 0x20, 0x40, 0x40]] ++
  [[0xF0, 0x90, 0xF0, 0x90, 0xF0], [0xF0, 0x90, 0xF0, 0x10, 0xF0],
   [0xF0, 0x90, 0xF0, 0x90, 0x90], [0xE0, 0x90, 0xE0, 0x90, 0xE0]] ++
  [[0xF0, 0x80, 0x80, 0x80, 0xF0], [0xE0, 0x90, 0x90, 0x90, 0xE0],
   [0xF0, 0x80, 0xF0, 0x80, 0xF0], [0xF0, 0x80, 0xF0, 0x80, 0x80]]

/-- `GLYPHS` as the parameter D1 names it: byte `k` of glyph `g`; 0 outside the 16 × 5 table. -/
def Config.glyph (g k : Nat) : Byte := ((Config.glyphRows[g]?).getD [])[k]?.getD 0

/-- The byte at offset `j` of the glyph table (R52): byte `j mod 5` of glyph `j / 5`. -/
def Config.glyphByte (j : Nat) : Byte := Config.glyph (j / Config.glyphStride) (j % Config.glyphStride)

/-- The random input (R118, D19): the byte the n-th draw takes. A FREE VALUE (log 2, safe): it has no body, so nothing
can be proved about any byte of it, and every sequence of draws is allowed. -/
opaque Config.randByte : Nat → Byte

/-- The display before the first reset, cell (r, c): undefined, but on or off (R31, R42). A FREE VALUE (log 37, safe): it
has no body, so nothing can be proved about any cell of it. -/
opaque Config.powerOnCell : Nat → Nat → Bool

end Sys2Proof
end

