-- ==== Sys2Proof/Syntax.lean ====
section
/-! DEFINITION. The 34 instructions of spec/opcode_table.json, one constructor per row, in the table's order
(30_encoding.md R84). A field has exactly the width the encoding gives it (R81), so no term names a register, an
immediate or an address that the word cannot hold (log 30). -/

namespace Sys2Proof

/-- One instruction of the base table. `x` and `y` are register indexes, `n` a nibble, `nn` an immediate byte,
`nnn` an immediate 12-bit address (R81). -/
inductive Instr where
  /-- 00E0 `CLS` (R131) -/
  | cls
  /-- 00EE `RET` (R143) -/
  | ret
  /-- 1nnn `JP addr` (R144) -/
  | jp (nnn : Imm12)
  /-- 2nnn `CALL addr` (R145) -/
  | call (nnn : Imm12)
  /-- 3xnn `SE Vx, byte` (R146) -/
  | seByte (x : Nibble) (nn : Byte)
  /-- 4xnn `SNE Vx, byte` (R147) -/
  | sneByte (x : Nibble) (nn : Byte)
  /-- 5xy0 `SE Vx, Vy` (R148) -/
  | seReg (x y : Nibble)
  /-- 6xnn `LD Vx, byte` (R105) -/
  | ldByte (x : Nibble) (nn : Byte)
  /-- 7xnn `ADD Vx, byte` (R106) -/
  | addByte (x : Nibble) (nn : Byte)
  /-- 8xy0 `LD Vx, Vy` (R107) -/
  | ldReg (x y : Nibble)
  /-- 8xy1 `OR Vx, Vy` (R108) -/
  | orReg (x y : Nibble)
  /-- 8xy2 `AND Vx, Vy` (R109) -/
  | andReg (x y : Nibble)
  /-- 8xy3 `XOR Vx, Vy` (R110) -/
  | xorReg (x y : Nibble)
  /-- 8xy4 `ADD Vx, Vy` (R111) -/
  | addReg (x y : Nibble)
  /-- 8xy5 `SUB Vx, Vy` (R112) -/
  | subReg (x y : Nibble)
  /-- 8xy6 `SHR Vx` (R113); `y` is encoded and not read (R93) -/
  | shr (x y : Nibble)
  /-- 8xy7 `SUBN Vx, Vy` (R114) -/
  | subn (x y : Nibble)
  /-- 8xyE `SHL Vx` (R115); `y` is encoded and not read (R93) -/
  | shl (x y : Nibble)
  /-- 9xy0 `SNE Vx, Vy` (R149) -/
  | sneReg (x y : Nibble)
  /-- Annn `LD I, addr` (R180) -/
  | ldI (nnn : Imm12)
  /-- Bnnn `JP V0, addr` (R150) -/
  | jpV0 (nnn : Imm12)
  /-- Cxnn `RND Vx, byte` (R117) -/
  | rnd (x : Nibble) (nn : Byte)
  /-- Dxyn `DRW Vx, Vy, nibble` (R133) -/
  | drw (x y n : Nibble)
  /-- Ex9E `SKP Vx` (R160) -/
  | skp (x : Nibble)
  /-- ExA1 `SKNP Vx` (R161) -/
  | sknp (x : Nibble)
  /-- Fx07 `LD Vx, DT` (R162) -/
  | ldVxDT (x : Nibble)
  /-- Fx0A `LD Vx, K` (R163) -/
  | ldVxK (x : Nibble)
  /-- Fx15 `LD DT, Vx` (R164) -/
  | ldDTVx (x : Nibble)
  /-- Fx18 `LD ST, Vx` (R165) -/
  | ldSTVx (x : Nibble)
  /-- Fx1E `ADD I, Vx` (R181) -/
  | addI (x : Nibble)
  /-- Fx29 `LD F, Vx` (R182) -/
  | ldF (x : Nibble)
  /-- Fx33 `LD B, Vx` (R185) -/
  | ldB (x : Nibble)
  /-- Fx55 `LD [I], Vx` (R186) -/
  | storeRegs (x : Nibble)
  /-- Fx65 `LD Vx, [I]` (R187) -/
  | loadRegs (x : Nibble)
  deriving DecidableEq, Repr

/-- The number of the instruction's row in spec/opcode_table.json, the first row 0. -/
def Instr.row : Instr → Nat
  | .cls => 0
  | .ret => 1
  | .jp _ => 2
  | .call _ => 3
  | .seByte _ _ => 4
  | .sneByte _ _ => 5
  | .seReg _ _ => 6
  | .ldByte _ _ => 7
  | .addByte _ _ => 8
  | .ldReg _ _ => 9
  | .orReg _ _ => 10
  | .andReg _ _ => 11
  | .xorReg _ _ => 12
  | .addReg _ _ => 13
  | .subReg _ _ => 14
  | .shr _ _ => 15
  | .subn _ _ => 16
  | .shl _ _ => 17
  | .sneReg _ _ => 18
  | .ldI _ => 19
  | .jpV0 _ => 20
  | .rnd _ _ => 21
  | .drw _ _ _ => 22
  | .skp _ => 23
  | .sknp _ => 24
  | .ldVxDT _ => 25
  | .ldVxK _ => 26
  | .ldDTVx _ => 27
  | .ldSTVx _ => 28
  | .addI _ => 29
  | .ldF _ => 30
  | .ldB _ => 31
  | .storeRegs _ => 32
  | .loadRegs _ => 33

end Sys2Proof
end

