-- ==== Sys2Proof/WellFormed.lean ====
section
/-! DEFINITION. Which 16-bit words are instructions: the opcode table's match and mask pairs (30_encoding.md R84, R85)
and, written apart from it, the table of the illegal words (R86). An `Instr` needs no check of its own: every field
has the width of its encoding (log 30), so the checks here are on words. -/

namespace Sys2Proof

/-- One row of spec/opcode_table.json: a word `w` is the row's when `w &&& mask = pattern` (R85). -/
structure OpcodeRow where
  pattern : Word
  mask : Word
  deriving DecidableEq, Repr

/-- The match and mask pairs of spec/opcode_table.json, in the table's order (`Instr.row` numbers them). -/
def opcodeTable : List OpcodeRow :=
  [⟨0x00E0, 0xFFFF⟩, ⟨0x00EE, 0xFFFF⟩, ⟨0x1000, 0xF000⟩, ⟨0x2000, 0xF000⟩, ⟨0x3000, 0xF000⟩, ⟨0x4000, 0xF000⟩,
   ⟨0x5000, 0xF00F⟩, ⟨0x6000, 0xF000⟩, ⟨0x7000, 0xF000⟩] ++
  [⟨0x8000, 0xF00F⟩, ⟨0x8001, 0xF00F⟩, ⟨0x8002, 0xF00F⟩, ⟨0x8003, 0xF00F⟩, ⟨0x8004, 0xF00F⟩, ⟨0x8005, 0xF00F⟩,
   ⟨0x8006, 0xF00F⟩, ⟨0x8007, 0xF00F⟩, ⟨0x800E, 0xF00F⟩] ++
  [⟨0x9000, 0xF00F⟩, ⟨0xA000, 0xF000⟩, ⟨0xB000, 0xF000⟩, ⟨0xC000, 0xF000⟩, ⟨0xD000, 0xF000⟩, ⟨0xE09E, 0xF0FF⟩,
   ⟨0xE0A1, 0xF0FF⟩] ++
  [⟨0xF007, 0xF0FF⟩, ⟨0xF00A, 0xF0FF⟩, ⟨0xF015, 0xF0FF⟩, ⟨0xF018, 0xF0FF⟩, ⟨0xF01E, 0xF0FF⟩, ⟨0xF029, 0xF0FF⟩,
   ⟨0xF033, 0xF0FF⟩, ⟨0xF055, 0xF0FF⟩, ⟨0xF065, 0xF0FF⟩]

/-- The word is the row's: `w &&& mask = pattern` (R85). -/
def OpcodeRow.matchesWord (r : OpcodeRow) (w : Word) : Bool := w &&& r.mask == r.pattern

/-- A well-formed instruction word: one that some row of the opcode table matches (R85). -/
def wellFormedWord (w : Word) : Bool := opcodeTable.any (fun r => r.matchesWord w)

/-- The illegal words, from the table of R86 and by arithmetic on the word alone: leading nibble 0 other than 00E0 and
00EE; 5 and 9 with n ≠ 0; 8 with n in 8 to D or F; E with nn other than 9E and A1; F with nn outside the nine
sub-opcodes. The rows of 5 and 9 are the spec's decision D10 (log 17). -/
def illegalWord (w : Word) : Bool :=
  let op := w.toNat / 0x1000
  let n := w.toNat % 0x10
  let nn := w.toNat % 0x100
  (op == 0 && w.toNat != 0x00E0 && w.toNat != 0x00EE)
  || ((op == 5 || op == 9) && n != 0)
  || (op == 8 && (n == 0x8 || n == 0x9 || n == 0xA || n == 0xB || n == 0xC || n == 0xD || n == 0xF))
  || (op == 0xE && nn != 0x9E && nn != 0xA1)
  || (op == 0xF && nn != 0x07 && nn != 0x0A && nn != 0x15 && nn != 0x18 && nn != 0x1E && nn != 0x29 && nn != 0x33
      && nn != 0x55 && nn != 0x65)

end Sys2Proof
end

