-- ==== Sys2Proof/Decode.lean ====
section
/-! DEFINITION. The fields of an instruction word (30_encoding.md R81), the decoder, total on all 65536 words (R85),
which rejects every other word by the name of its family (R86), and the encoder, written from the same table. -/

namespace Sys2Proof

/-- Why a word is no instruction: the row of R86's table it falls under. Raised by `decode`; the step turns each into
the fault DecodeError (R91). Safe: the spec makes every such word fatal. -/
inductive DecodeReject where
  /-- 0nnn other than 00E0 and 00EE: the machine-call space (R86, R208) -/
  | family0
  /-- 5xyn with n ≠ 0 (R86; D10, log 17) -/
  | family5
  /-- 8xyn with an undefined sub-opcode (R86) -/
  | family8
  /-- 9xyn with n ≠ 0 (R86; D10, log 17) -/
  | family9
  /-- Exnn with nn neither 9E nor A1 (R86) -/
  | familyE
  /-- Fxnn with nn none of the nine sub-opcodes (R86) -/
  | familyF
  deriving DecidableEq, Repr

/-- `op = w[15:12]` (R81). -/
def opField (w : Word) : Nibble := w.extractLsb' 12 4
/-- `x = w[11:8]` (R81). -/
def xField (w : Word) : Nibble := w.extractLsb' 8 4
/-- `y = w[7:4]` (R81). -/
def yField (w : Word) : Nibble := w.extractLsb' 4 4
/-- `n = w[3:0]` (R81). -/
def nField (w : Word) : Nibble := w.extractLsb' 0 4
/-- `nn = w[7:0]` (R81). -/
def nnField (w : Word) : Byte := w.extractLsb' 0 8
/-- `nnn = w[11:0]` (R81). -/
def nnnField (w : Word) : Imm12 := w.extractLsb' 0 12

/-- The 0 family: two fixed words (R84). -/
def decodeFamily0 (w : Word) : Except DecodeReject Instr :=
  if w = 0x00E0 then .ok .cls
  else if w = 0x00EE then .ok .ret
  else .error .family0

/-- The 8 family: the sub-opcode is n (R83, R84). -/
def decodeFamily8 (w : Word) : Except DecodeReject Instr :=
  match (nField w).toNat with
  | 0x0 => .ok (.ldReg (xField w) (yField w))
  | 0x1 => .ok (.orReg (xField w) (yField w))
  | 0x2 => .ok (.andReg (xField w) (yField w))
  | 0x3 => .ok (.xorReg (xField w) (yField w))
  | 0x4 => .ok (.addReg (xField w) (yField w))
  | 0x5 => .ok (.subReg (xField w) (yField w))
  | 0x6 => .ok (.shr (xField w) (yField w))
  | 0x7 => .ok (.subn (xField w) (yField w))
  | 0xE => .ok (.shl (xField w) (yField w))
  | _ => .error .family8

/-- The E family: the sub-opcode is nn (R83, R84). -/
def decodeFamilyE (w : Word) : Except DecodeReject Instr :=
  if nnField w = 0x9E then .ok (.skp (xField w))
  else if nnField w = 0xA1 then .ok (.sknp (xField w))
  else .error .familyE

/-- The F family: the sub-opcode is nn (R83, R84). -/
def decodeFamilyF (w : Word) : Except DecodeReject Instr :=
  if nnField w = 0x07 then .ok (.ldVxDT (xField w))
  else if nnField w = 0x0A then .ok (.ldVxK (xField w))
  else if nnField w = 0x15 then .ok (.ldDTVx (xField w))
  else if nnField w = 0x18 then .ok (.ldSTVx (xField w))
  else if nnField w = 0x1E then .ok (.addI (xField w))
  else if nnField w = 0x29 then .ok (.ldF (xField w))
  else if nnField w = 0x33 then .ok (.ldB (xField w))
  else if nnField w = 0x55 then .ok (.storeRegs (xField w))
  else if nnField w = 0x65 then .ok (.loadRegs (xField w))
  else .error .familyF

/-- `decode(w)` (R85): dispatch on the leading nibble into one of the families (R90). -/
def decode (w : Word) : Except DecodeReject Instr :=
  match (opField w).toNat with
  | 0x0 => decodeFamily0 w
  | 0x1 => .ok (.jp (nnnField w))
  | 0x2 => .ok (.call (nnnField w))
  | 0x3 => .ok (.seByte (xField w) (nnField w))
  | 0x4 => .ok (.sneByte (xField w) (nnField w))
  | 0x5 => if nField w = 0 then .ok (.seReg (xField w) (yField w)) else .error .family5
  | 0x6 => .ok (.ldByte (xField w) (nnField w))
  | 0x7 => .ok (.addByte (xField w) (nnField w))
  | 0x8 => decodeFamily8 w
  | 0x9 => if nField w = 0 then .ok (.sneReg (xField w) (yField w)) else .error .family9
  | 0xA => .ok (.ldI (nnnField w))
  | 0xB => .ok (.jpV0 (nnnField w))
  | 0xC => .ok (.rnd (xField w) (nnField w))
  | 0xD => .ok (.drw (xField w) (yField w) (nField w))
  | 0xE => decodeFamilyE w
  | _ => decodeFamilyF w

/-- Two bytes of memory as one word, the byte at the lower address high (20_memory.md R58, 30_encoding.md R80). -/
def wordOfBytes (hi lo : Byte) : Word := hi ++ lo

/-- The byte of a word stored at the lower address (R58). -/
def highByte (w : Word) : Byte := w.extractLsb' 8 8

/-- The byte of a word stored at the higher address (R58). -/
def lowByte (w : Word) : Byte := w.extractLsb' 0 8

/-- The decoder on the bytes as they stand in memory: the first instruction of a list and the bytes after it;
`none` where fewer than two bytes are left. -/
def decodeBytes : List Byte → Option (Except DecodeReject Instr × List Byte)
  | hi :: lo :: rest => some (decode (wordOfBytes hi lo), rest)
  | _ => none

/-- The format NNN (R83): leading nibble and a 12-bit immediate. -/
def packNNN (op : Nibble) (nnn : Imm12) : Word := op ++ nnn

/-- The formats XNN and XS (R83): leading nibble, register, immediate byte or sub-opcode. -/
def packXNN (op x : Nibble) (nn : Byte) : Word := op ++ x ++ nn

/-- The formats XYS and XYN (R83): leading nibble, two registers, nibble or sub-opcode. -/
def packXYN (op x y n : Nibble) : Word := op ++ x ++ y ++ n

/-- The word of an instruction, from the rows of the opcode table (R83, R84). -/
def encode : Instr → Word
  | .cls => 0x00E0
  | .ret => 0x00EE
  | .jp nnn => packNNN 0x1 nnn
  | .call nnn => packNNN 0x2 nnn
  | .seByte x nn => packXNN 0x3 x nn
  | .sneByte x nn => packXNN 0x4 x nn
  | .seReg x y => packXYN 0x5 x y 0x0
  | .ldByte x nn => packXNN 0x6 x nn
  | .addByte x nn => packXNN 0x7 x nn
  | .ldReg x y => packXYN 0x8 x y 0x0
  | .orReg x y => packXYN 0x8 x y 0x1
  | .andReg x y => packXYN 0x8 x y 0x2
  | .xorReg x y => packXYN 0x8 x y 0x3
  | .addReg x y => packXYN 0x8 x y 0x4
  | .subReg x y => packXYN 0x8 x y 0x5
  | .shr x y => packXYN 0x8 x y 0x6
  | .subn x y => packXYN 0x8 x y 0x7
  | .shl x y => packXYN 0x8 x y 0xE
  | .sneReg x y => packXYN 0x9 x y 0x0
  | .ldI nnn => packNNN 0xA nnn
  | .jpV0 nnn => packNNN 0xB nnn
  | .rnd x nn => packXNN 0xC x nn
  | .drw x y n => packXYN 0xD x y n
  | .skp x => packXNN 0xE x 0x9E
  | .sknp x => packXNN 0xE x 0xA1
  | .ldVxDT x => packXNN 0xF x 0x07
  | .ldVxK x => packXNN 0xF x 0x0A
  | .ldDTVx x => packXNN 0xF x 0x15
  | .ldSTVx x => packXNN 0xF x 0x18
  | .addI x => packXNN 0xF x 0x1E
  | .ldF x => packXNN 0xF x 0x29
  | .ldB x => packXNN 0xF x 0x33
  | .storeRegs x => packXNN 0xF x 0x55
  | .loadRegs x => packXNN 0xF x 0x65

/-- The instruction's two bytes as they stand in memory, lower address first (R58, R80). -/
def encodeBytes (i : Instr) : List Byte := [highByte (encode i), lowByte (encode i)]

/-- The word of an opcode-table row whose bits are `w`, bit 0 the least significant bit of the word (R9); the bits
from `nbits` up are 0. Every instruction is one word, so no bit above 15 is read. -/
def tableWord (nbits w : Nat) : Word := BitVec.ofNat Config.insnWidth (w % 2 ^ nbits)

/-- The instruction the decoder reads from the bytes of that word, high byte first. -/
def decodeTableWord (nbits w : Nat) : Option Instr :=
  match decodeBytes [highByte (tableWord nbits w), lowByte (tableWord nbits w)] with
  | some (.ok i, _) => some i
  | _ => none

end Sys2Proof
end

