-- ==== Sys2Proof/Machine/State.lean ====
section
/-! DEFINITION. Every piece of state 10_state.md and 20_memory.md give THE CORE, the fault record of 60_exceptions.md
R202, the reasons a step of the model can stop, and the state after reset (R39 to R41). -/

namespace Sys2Proof.Machine

/-- The fault codes of R200. -/
inductive FaultCode where
  /-- code 1: the word matches no row; raised by the decode of a step (R91) -/
  | decodeError
  /-- code 2: 2nnn at SP = 32 (R145) -/
  | stackOverflow
  /-- code 3: 00EE at SP = 0 (R143) -/
  | stackUnderflow
  /-- code 4: a byte address of 4096 or more; the fetch, Dxyn, Fx33, Fx55, Fx65 (R55, R92) -/
  | addressOutOfRange
  /-- code 5: a write into 0x050 to 0x09F; Fx33, Fx55 (R54, R56) -/
  | glyphWrite
  /-- code 6: Ex9E or ExA1 with Vx above 0xF (R166) -/
  | keyIndexOutOfRange
  deriving DecidableEq, Repr

/-- The fault record `(code, fault_pc, word, addr)` of R202. `word` is none when the fetch itself faulted; `addr` is the
recorded info of R200: the byte address (a natural number, R57), or Vx for code 6, or none. -/
structure FaultRecord where
  code : FaultCode
  faultPc : Word
  word : Option Word
  addr : Option Nat
  deriving DecidableEq, Repr

/-- Why the machine stops. -/
inductive Fault where
  /-- The fault status is set: no cycle executes and the run returns this record at once (R204, R213). Raised by
  `step` only, never by a meaning. Exact (log 16): the spec lets nothing run until the next reset. -/
  | halted (r : FaultRecord)
  deriving DecidableEq, Repr

/-- Why the model gives no meaning. No instruction's meaning answers with one. -/
inductive Refusal where
  /-- An instruction that has no meaning yet; raised by no arm of `exec` (every instruction has its meaning). Safe. -/
  | notModelled (mnemonic : String)
  /-- load, run, cancel or a cycle enable before the first reset (R42; D22, log 8). Raised by `Session.move`. Safe. -/
  | beforeFirstReset
  /-- reset, load or a second run while a run is active (R224; D22, log 8). Raised by `Session.move`. Safe here; the
  assumption that no host does it is unsafe. -/
  | runIsActive
  /-- A cycle enable or a cancel request while no run is active (R224; log 25). Raised by `Session.move`. Safe. -/
  | noRunIsActive
  deriving DecidableEq, Repr

/-- The display buffer (R31, R130): 32 rows, top to bottom, of 64 columns, left to right; a cell is off or on. -/
abbrev Display := Vector (Vector Bool Config.dispW) Config.dispH

/-- Memory as the list of the bytes that differ from the reset contents, by strictly rising address (log 29). -/
abbrev Memory := List Host.Cell

/-- The state of THE CORE. -/
structure State where
  /-- V0 to VF (R20); VF, register 15, is also the flag (R21, R22) -/
  v : Vector (BitVec Config.regWidth) Config.nRegs
  /-- the program counter; between instructions, the address of the next instruction (R23) -/
  pc : BitVec Config.pcWidth
  /-- the index register I (R26) -/
  i : BitVec Config.iWidth
  /-- the stack depth SP, 0 to 32 (R27) -/
  sp : Fin (Config.stackDepth + 1)
  /-- the stack entries STK[0] to STK[31] (R27) -/
  stk : Vector (BitVec Config.stackEntryWidth) Config.stackDepth
  /-- the delay timer DT (R29) -/
  dt : BitVec Config.timerWidth
  /-- the sound timer ST (R30) -/
  st : BitVec Config.timerWidth
  /-- the display buffer Disp (R31) -/
  disp : Display
  /-- the input latch Key[0] to Key[15] (R32) -/
  key : Vector Bool Config.nKeys
  /-- the paused flag (R33) -/
  paused : Bool
  /-- the fault status (R34) -/
  fault : Option FaultRecord
  /-- the 4096 bytes of memory (R50) -/
  mem : Memory
  /-- The MODEL's own counter, not the spec's: how many bytes of the random input Cxnn has taken (R118; log 2) -/
  draws : Nat
  deriving DecidableEq, Repr

/-- The machine right after `reset()` (R39, R40, R41, R240): memory lists nothing, so every byte reads as its reset
content. STK's zeros and `draws` are the model's (DESIGN CHOICE, log 4 and log 6, unsafe); DT and ST are the spec's
decision D16 (log 5). -/
def State.reset : State where
  v := Vector.replicate Config.nRegs 0
  pc := 0x200
  i := 0
  sp := 0
  stk := Vector.replicate Config.stackDepth 0
  dt := 0
  st := 0
  disp := Vector.replicate Config.dispH (Vector.replicate Config.dispW false)
  key := Vector.replicate Config.nKeys false
  paused := false
  fault := none
  mem := []
  draws := 0

end Sys2Proof.Machine
end

