-- ==== Sys2Proof/Machine/Ops.lean ====
section
/-! DEFINITION. The named operations of THE CORE: memory and its two access checks (20_memory.md), registers, stack,
latch and timers (10_state.md), raising a fault (60_exceptions.md R201 to R203), the fetch (30_encoding.md R90, R92),
the end of a cycle (R214, R216) and the load (70_reset_and_hazards.md R243). -/

namespace Sys2Proof.Machine

/-! ### Memory as data -/

/-- The address lies in the glyph table 0x050 to 0x09F (R51). -/
def inGlyphTable (a : Nat) : Bool := decide (Config.glyphBase ≤ a ∧ a ≤ Config.glyphEnd)

/-- What an address nothing has written reads as: its content after reset (R39, R51; log 29). -/
def Memory.background (a : Nat) : Byte :=
  if inGlyphTable a then Config.glyphByte (a - Config.glyphBase) else 0

/-- `Mem[a]`: the byte an address holds (R50). -/
def Memory.read (m : Memory) (a : Nat) : Byte :=
  match m with
  | [] => Memory.background a
  | c :: rest => if c.1 = a then c.2 else Memory.read rest a

/-- The memory without any entry for the address. -/
def Memory.forget (m : Memory) (a : Nat) : Memory := m.filter (fun c => c.1 != a)

/-- A cell put before the first entry of a higher address. -/
def Memory.insert (m : Memory) (c : Host.Cell) : Memory :=
  match m with
  | [] => [c]
  | d :: rest => if c.1 < d.1 then c :: d :: rest else d :: Memory.insert rest c

/-- `Mem[a] <- b`, keeping the canonical form: a byte equal to the reset content is not listed. -/
def Memory.write (m : Memory) (a : Nat) (b : Byte) : Memory :=
  if b = Memory.background a then m.forget a else (m.forget a).insert (a, b)

/-- The canonical form: addresses strictly rising, and no entry equal to what an unlisted address reads as. -/
def Memory.wf (m : Memory) : Bool :=
  decide (m.Pairwise (fun c d => c.1 < d.1)) && m.all (fun c => c.2 != Memory.background c.1)

/-- `n` bytes from an address up, in ascending order (R64). -/
def Memory.readBytes (m : Memory) (base : Nat) : Nat → List Byte
  | 0 => []
  | n + 1 => m.read base :: Memory.readBytes m (base + 1) n

/-- Bytes stored from an address up, in ascending order (R64). -/
def Memory.writeBytes (m : Memory) (base : Nat) : List Byte → Memory
  | [] => m
  | b :: bs => Memory.writeBytes (m.write base b) (base + 1) bs

/-! ### Access checks -/

/-- What a failed check raises: the code and the recorded info of R200. -/
structure FaultInfo where
  code : FaultCode
  addr : Option Nat
  deriving DecidableEq, Repr

/-- The check of `MemRead` (R55): AddressOutOfRange at 4096 and above (D2, log 9). -/
def checkRead (a : Nat) : Option FaultInfo :=
  if a < Config.memSize then none else some ⟨.addressOutOfRange, some a⟩

/-- The checks of `MemWrite` (R56), the range before the glyph table (R205): GlyphWrite in 0x050 to 0x09F
(R54; D3, log 10). -/
def checkWrite (a : Nat) : Option FaultInfo :=
  if a < Config.memSize then
    if inGlyphTable a then some ⟨.glyphWrite, some a⟩ else none
  else some ⟨.addressOutOfRange, some a⟩

/-- The first failing check of `n` bytes from an address up, in ascending order (R184, R205); addresses are unwrapped
sums (R57). -/
def firstFault (check : Nat → Option FaultInfo) (base : Nat) : Nat → Option FaultInfo
  | 0 => none
  | n + 1 =>
    match check base with
    | some f => some f
    | none => firstFault check (base + 1) n

/-- The check of a push (R28, R145): StackOverflow at SP = 32. -/
def checkPush (s : State) : Option FaultInfo :=
  if s.sp.val < Config.stackDepth then none else some ⟨.stackOverflow, none⟩

/-- The check of a pop (R28, R143): StackUnderflow at SP = 0. -/
def checkPop (s : State) : Option FaultInfo :=
  if 0 < s.sp.val then none else some ⟨.stackUnderflow, none⟩

/-- The check of a key operand (R166): KeyIndexOutOfRange above 0xF (D13, log 20). -/
def checkKey (a : Byte) : Option FaultInfo :=
  if a.toNat < Config.nKeys then none else some ⟨.keyIndexOutOfRange, some a.toNat⟩

/-! ### Registers, stack, latch, timers -/

/-- `V[x]` (R11, R20). -/
def State.reg (s : State) (x : Nibble) : Byte := s.v[x.toNat]'x.isLt

/-- `V[x] <- b` (R11, R20). -/
def State.setReg (s : State) (x : Nibble) (b : Byte) : State := { s with v := s.v.set x.toNat b x.isLt }

/-- `V[15] <- b`: register VF in its flag role (R22). -/
def State.setVF (s : State) (b : Byte) : State := s.setReg 0xF b

/-- `V[k], V[k+1], … <- ` the bytes, in ascending order (R187). -/
def State.setRegs (s : State) (k : Nat) : List Byte → State
  | [] => s
  | b :: bs => State.setRegs (s.setReg (BitVec.ofNat 4 k) b) (k + 1) bs

/-- `(V[0], …, V[x])` (R186). -/
def State.regsUpTo (s : State) (x : Nibble) : List Byte := s.v.toList.take (x.toNat + 1)

/-- The fetch's `pc <- (pc + 2) mod 2^16` (R90): every meaning starts from it. -/
def State.advancePc (s : State) : State := { s with pc := s.pc + 2 }

/-- `pc <- a` (R25: any 16-bit value is held; D5, log 12). -/
def State.setPc (s : State) (a : Word) : State := { s with pc := a }

/-- `if c: pc <- (pc + 2) mod 2^16`, on the advanced pc (R141). -/
def State.skipIf (s : State) (c : Bool) : State := if c then { s with pc := s.pc + 2 } else s

/-- `pc <- (pc - 2) mod 2^16`, on the advanced pc: the rewind of the key wait (R163). -/
def State.rewindPc (s : State) : State := { s with pc := s.pc - 2 }

/-- `I <- a` (R26). -/
def State.setI (s : State) (a : Word) : State := { s with i := a }

/-- `STK[SP] <- a; SP <- SP + 1` (R27); nothing at SP = 32, where `checkPush` raises the fault first. -/
def State.push (s : State) (a : Word) : State :=
  if h : s.sp.val < Config.stackDepth then { s with stk := s.stk.set s.sp.val a h, sp := ⟨s.sp.val + 1, by omega⟩ } else s

/-- `STK[SP - 1]`, what a pop reads (R27). -/
def State.top (s : State) : Word := s.stk[s.sp.val - 1]'(by have : s.sp.val < 33 := s.sp.isLt; show s.sp.val - 1 < 32; omega)

/-- `SP <- SP - 1` (R27): the popped entry stays as it is (log 4); nothing at SP = 0, where `checkPop` raises first. -/
def State.pop (s : State) : State := { s with sp := ⟨s.sp.val - 1, by have := s.sp.isLt; omega⟩ }

/-- `DT <- b` (R29). -/
def State.setDT (s : State) (b : Byte) : State := { s with dt := b }

/-- `ST <- b` (R30). -/
def State.setST (s : State) (b : Byte) : State := { s with st := b }

/-- The display replaced whole: one atomic write (R65, R137). -/
def State.setDisp (s : State) (d : Display) : State := { s with disp := d }

/-- `paused <- b` (R33). -/
def State.setPaused (s : State) (b : Bool) : State := { s with paused := b }

/-- Memory replaced; each store of an instruction goes through `Memory.writeBytes`. -/
def State.setMem (s : State) (m : Memory) : State := { s with mem := m }

/-- `Key[k]` (R32). -/
def State.keyHeld (s : State) (k : Nibble) : Bool := s.key[k.toNat]'k.isLt

/-- `Key[k] <- b`: the host's key_down and key_up (R32, R220); no instruction calls it. -/
def State.setKey (s : State) (k : Nibble) (b : Bool) : State := { s with key := s.key.set k.toNat b k.isLt }

/-- The lowest k with `Key[k]`, if some key is held (R163). -/
def State.lowestKey (s : State) : Option Nat := s.key.toList.findIdx? id

/-- The byte `draw Rand()` gives now (R118): the free value of log 2. -/
def State.randNow (s : State) : Byte := Config.randByte s.draws

/-- One byte of the random input taken (R118). -/
def State.countDraw (s : State) : State := { s with draws := s.draws + 1 }

/-! ### Faults -/

/-- Raising a fault (R201, R202, R203): the record goes into the fault status and nothing else changes, so pc stays at
the faulting instruction (D7, log 14). There is no handler, no saved state and no trap return (R207). -/
def State.takeFault (s : State) (word : Option Word) (f : FaultInfo) : State :=
  { s with fault := some ⟨f.code, s.pc, word, f.addr⟩ }

/-- An instruction with a check (R12): the fault if it fails, else the whole effect. The record's word is the
instruction's own (R202; log 15). -/
def guarded (i : Instr) (check : Option FaultInfo) (s effect : State) : Host.Outcome State Fault Refusal :=
  match check with
  | some f => .next (s.takeFault (some (encode i)) f)
  | none => .next effect

/-- What an illegal word raises (R91): no address is recorded. -/
def decodeFault : FaultInfo := ⟨.decodeError, none⟩

/-! ### Fetch, end of cycle, load -/

/-- The word at pc, high byte first (R58, R90), or the fault of the first of pc, pc + 1 that is 4096 or more (R92). -/
def State.fetch (s : State) : Except FaultInfo Word :=
  match firstFault checkRead s.pc.toNat 2 with
  | some f => .error f
  | none => .ok (wordOfBytes (s.mem.read s.pc.toNat) (s.mem.read (s.pc.toNat + 1)))

/-- A timer above 0 goes down by 1; a timer at 0 stays (R216). -/
def decrement (t : Byte) : Byte := if t = 0 then 0 else t - 1

/-- The end of a cycle (R214, R216): both timers decay unless the step left paused set or raised a fault
(R203; D17, log 23). -/
def State.decay (s : State) : State :=
  if s.fault.isSome || s.paused then s else { s with dt := decrement s.dt, st := decrement s.st }

/-- The end of a cycle on the outcome of an instruction. -/
def endOfCycle : Host.Outcome State Fault Refusal → Host.Outcome State Fault Refusal
  | .next t => .next t.decay
  | .fault f => .fault f
  | .refused r => .refused r

/-- `load(source)` (R243): the first 3584 bytes from 0x200 up; the rest is dropped without an error. -/
def State.load (s : State) (source : List Byte) : State :=
  s.setMem (s.mem.writeBytes Config.progBase (source.take Config.progCapacity))

/-- `reset()` on a machine that has run (R240, R241): the state of `State.reset`, whatever came before. The model's
count of draws goes on, so that the bytes drawn after a reset are fresh ones (R118; log 6). -/
def State.resetAgain (s : State) : State := { State.reset with draws := s.draws }

end Sys2Proof.Machine
end

