-- ==== Sys2Proof/Machine/Operands.lean ====
section
/-! DEFINITION. The operand forms of the instructions: immediates (30_encoding.md R82), jump targets (42_control_flow.md
R140), the index addressing mode (20_memory.md R57, 44_index_memory.md R184), the digit glyph (R182), the decimal
digits (R185), key operands (R166) and sprite coordinates (41_display.md R132, R133). -/

namespace Sys2Proof.Machine

/-- `zext_16(nnn)` (R82, R140). -/
def zextAddr (nnn : Imm12) : Word := nnn.setWidth 16

/-- `(zext_16(nnn) + V0) mod 2^16`, not masked to 12 bits (R150; D5, log 12). -/
def indexedTarget (nnn : Imm12) (v0 : Byte) : Word := zextAddr nnn + v0.setWidth 16

/-- The address of byte `k` of an indexed access: `I + k`, an unwrapped sum (R57, R184). -/
def effAddr (s : State) (k : Nat) : Nat := s.i.toNat + k

/-- `(I + Vx) mod 2^16` (R181). -/
def indexSum (idx : Word) (a : Byte) : Word := idx + a.setWidth 16

/-- `(0x050 + 5 * Vx) mod 2^16`: the glyph of a digit, the value not masked (R182; D14, log 21). -/
def glyphAddr (a : Byte) : Word := BitVec.ofNat 16 (Config.glyphBase + Config.glyphStride * a.toNat)

/-- The hundreds, tens and units digit of a byte (R185). -/
def decimalDigits (a : Byte) : List Byte :=
  [BitVec.ofNat 8 (a.toNat / 100), BitVec.ofNat 8 (a.toNat / 10 % 10), BitVec.ofNat 8 (a.toNat % 10)]

/-- The key a register value names, where `checkKey` passes (R166). -/
def keyOperand (a : Byte) : Nibble := BitVec.ofNat 4 a.toNat

/-- The starting column `cx = Vx mod 64` (R132). -/
def startColumn (a : Byte) : Nat := a.toNat % Config.dispW

/-- The starting row `cy = Vy mod 32` (R132). -/
def startRow (b : Byte) : Nat := b.toNat % Config.dispH

/-- `rows = min(n, 32 - cy)`: the rows below the bottom edge are skipped (R133, R134). -/
def drawnRows (n : Nibble) (cy : Nat) : Nat := min n.toNat (Config.dispH - cy)

end Sys2Proof.Machine
end

