-- ==== Sys2Proof/Machine/Alu.lean ====
section
/-! DEFINITION. The arithmetic and logic instructions (40_alu.md). Operands are read from the state before the
instruction; writes happen in the order the rule lists them (00_scope.md R12; D6, log 13). -/

namespace Sys2Proof.Machine

/-- 6xnn `LD Vx, byte` (R105). -/
def execLdByte (x : Nibble) (nn : Byte) (s : State) : Host.Outcome State Fault Refusal :=
  .next (s.advancePc.setReg x nn)

/-- 7xnn `ADD Vx, byte`: modulo 256, no flag (R106). -/
def execAddByte (x : Nibble) (nn : Byte) (s : State) : Host.Outcome State Fault Refusal :=
  .next (s.advancePc.setReg x (s.reg x + nn))

/-- 8xy0 `LD Vx, Vy` (R107). -/
def execLdReg (x y : Nibble) (s : State) : Host.Outcome State Fault Refusal :=
  .next (s.advancePc.setReg x (s.reg y))

/-- 8xy1 `OR Vx, Vy`: no flag (R108). -/
def execOrReg (x y : Nibble) (s : State) : Host.Outcome State Fault Refusal :=
  .next (s.advancePc.setReg x (s.reg x ||| s.reg y))

/-- 8xy2 `AND Vx, Vy`: no flag (R109). -/
def execAndReg (x y : Nibble) (s : State) : Host.Outcome State Fault Refusal :=
  .next (s.advancePc.setReg x (s.reg x &&& s.reg y))

/-- 8xy3 `XOR Vx, Vy`: no flag (R110). -/
def execXorReg (x y : Nibble) (s : State) : Host.Outcome State Fault Refusal :=
  .next (s.advancePc.setReg x (s.reg x ^^^ s.reg y))

/-- 8xy4 `ADD Vx, Vy`: Vx, then VF := carry, so the carry stays when x = 15 (R111, R116). -/
def execAddReg (x y : Nibble) (s : State) : Host.Outcome State Fault Refusal :=
  .next ((s.advancePc.setReg x (s.reg x + s.reg y)).setVF (flagByte (carryFlag (s.reg x) (s.reg y))))

/-- 8xy5 `SUB Vx, Vy`: VF := Vx > Vy, then Vx, so the difference stays when x = 15 (R112, R116). -/
def execSubReg (x y : Nibble) (s : State) : Host.Outcome State Fault Refusal :=
  .next ((s.advancePc.setVF (flagByte (greaterFlag (s.reg x) (s.reg y)))).setReg x (s.reg x - s.reg y))

/-- 8xy6 `SHR Vx`: VF := bit 0, then Vx; y is not read (R113, R93, R116). -/
def execShr (x _y : Nibble) (s : State) : Host.Outcome State Fault Refusal :=
  .next ((s.advancePc.setVF (flagByte (lowBitFlag (s.reg x)))).setReg x (s.reg x >>> 1))

/-- 8xy7 `SUBN Vx, Vy`: VF := Vy > Vx, then Vx := Vy - Vx (R114, R116). -/
def execSubn (x y : Nibble) (s : State) : Host.Outcome State Fault Refusal :=
  .next ((s.advancePc.setVF (flagByte (greaterFlag (s.reg y) (s.reg x)))).setReg x (s.reg y - s.reg x))

/-- 8xyE `SHL Vx`: VF := bit 7, then Vx; y is not read (R115, R93, R116). -/
def execShl (x _y : Nibble) (s : State) : Host.Outcome State Fault Refusal :=
  .next ((s.advancePc.setVF (flagByte (highBitFlag (s.reg x)))).setReg x (s.reg x <<< 1))

/-- Cxnn `RND Vx, byte`: one fresh byte of the random input, and nn (R117, R118). -/
def execRnd (x : Nibble) (nn : Byte) (s : State) : Host.Outcome State Fault Refusal :=
  .next (s.advancePc.countDraw.setReg x (s.randNow &&& nn))

end Sys2Proof.Machine
end

