-- ==== Sys2Proof/Machine/Control.lean ====
section
/-! DEFINITION. The control-flow and stack instructions (42_control_flow.md). Targets are absolute and any 16-bit
target is held; a bad one faults at the next fetch (R140; D4, D5, log 11, log 12). -/

namespace Sys2Proof.Machine

/-- 00EE `RET`: StackUnderflow at SP = 0, else SP down and pc popped (R143). -/
def execRet (s : State) : Host.Outcome State Fault Refusal :=
  guarded .ret (checkPop s) s (s.pop.setPc s.top)

/-- 1nnn `JP addr` (R144). -/
def execJp (nnn : Imm12) (s : State) : Host.Outcome State Fault Refusal :=
  .next (s.advancePc.setPc (zextAddr nnn))

/-- 2nnn `CALL addr`: StackOverflow at SP = 32, else the call's address + 2 pushed (R145, R250). -/
def execCall (nnn : Imm12) (s : State) : Host.Outcome State Fault Refusal :=
  guarded (.call nnn) (checkPush s) s ((s.advancePc.push s.advancePc.pc).setPc (zextAddr nnn))

/-- 3xnn `SE Vx, byte` (R146). -/
def execSeByte (x : Nibble) (nn : Byte) (s : State) : Host.Outcome State Fault Refusal :=
  .next (s.advancePc.skipIf (s.reg x == nn))

/-- 4xnn `SNE Vx, byte` (R147). -/
def execSneByte (x : Nibble) (nn : Byte) (s : State) : Host.Outcome State Fault Refusal :=
  .next (s.advancePc.skipIf (s.reg x != nn))

/-- 5xy0 `SE Vx, Vy` (R148). -/
def execSeReg (x y : Nibble) (s : State) : Host.Outcome State Fault Refusal :=
  .next (s.advancePc.skipIf (s.reg x == s.reg y))

/-- 9xy0 `SNE Vx, Vy` (R149). -/
def execSneReg (x y : Nibble) (s : State) : Host.Outcome State Fault Refusal :=
  .next (s.advancePc.skipIf (s.reg x != s.reg y))

/-- Bnnn `JP V0, addr`: always V0, not masked to 12 bits (R150). -/
def execJpV0 (nnn : Imm12) (s : State) : Host.Outcome State Fault Refusal :=
  .next (s.advancePc.setPc (indexedTarget nnn (s.reg 0)))

end Sys2Proof.Machine
end

