-- ==== Sys2Proof/Machine/Display.lean ====
section
/-! DEFINITION. The display instructions (41_display.md) and the sprite algorithm (R133, R134). -/

namespace Sys2Proof.Machine

/-- `Disp[r][c]` (R130); off outside the grid, where no rule reads it. -/
def Display.cell (d : Display) (r c : Nat) : Bool :=
  if h : r < 32 ∧ c < 64 then (d[r]'h.1)[c]'h.2 else false

/-- `Disp[r][c] <- Disp[r][c] ^ 1`; nothing outside the grid, where no rule writes. -/
def Display.flip (d : Display) (r c : Nat) : Display :=
  if h : r < 32 ∧ c < 64 then d.set r ((d[r]'h.1).set c (!(d[r]'h.1)[c]'h.2) h.2) h.1 else d

/-- The all-zero buffer of 00E0 and of reset (R31, R131). -/
def Display.blank : Display := Vector.replicate 32 (Vector.replicate 64 false)

/-- A sprite draw under way: the display, and whether a cell that was on has been drawn on (the collision). -/
structure Canvas where
  disp : Display
  hit : Bool
  deriving DecidableEq, Repr

/-- One set sprite bit on cell (r, c): the collision if the cell was on, then the XOR (R133). -/
def Canvas.plot (k : Canvas) (r c : Nat) : Canvas := ⟨k.disp.flip r c, k.hit || k.disp.cell r c⟩

/-- Row r of a sprite byte, with `left` bits still to draw: bit `left - 1` is at column `cx + (8 - left)`, the most
significant bit leftmost; at the right edge the rest of the row is skipped (R133, R134). -/
def Canvas.drawBits (r cx : Nat) (byte : Byte) : Nat → Canvas → Canvas
  | 0, k => k
  | left + 1, k =>
    if cx + (7 - left) ≥ Config.dispW then k
    else Canvas.drawBits r cx byte left (if byte.getLsbD left then k.plot r (cx + (7 - left)) else k)

/-- The sprite's bytes, one a row from row r down (R133). -/
def Canvas.drawRows (cx : Nat) : List Byte → Nat → Canvas → Canvas
  | [], _, k => k
  | byte :: rest, r, k => Canvas.drawRows cx rest (r + 1) (Canvas.drawBits r cx byte 8 k)

/-- The sprite of Dxyn drawn on the display: the drawn rows' bytes from I up, at the starting position of the
coordinates as they were before the instruction (R132, R133, R134). -/
def drawSprite (s : State) (x y n : Nibble) : Canvas :=
  Canvas.drawRows (startColumn (s.reg x))
    (s.mem.readBytes (effAddr s 0) (drawnRows n (startRow (s.reg y)))) (startRow (s.reg y)) ⟨s.disp, false⟩

/-- 00E0 `CLS` (R131). -/
def execCls (s : State) : Host.Outcome State Fault Refusal :=
  .next (s.advancePc.setDisp Display.blank)

/-- Dxyn `DRW Vx, Vy, nibble` (R133): every one of the n sprite addresses is checked, drawn or not (R135; D12, log 19);
Dxy0 draws nothing and clears VF (R136; D11, log 18). -/
def execDrw (x y n : Nibble) (s : State) : Host.Outcome State Fault Refusal :=
  guarded (.drw x y n) (firstFault checkRead (effAddr s 0) n.toNat) s
    ((s.advancePc.setDisp (drawSprite s x y n).disp).setVF (flagByte (drawSprite s x y n).hit))

end Sys2Proof.Machine
end

