-- ==== Sys2Proof/Machine/IndexMemory.lean ====
section
/-! DEFINITION. The index-register and memory instructions (44_index_memory.md). Every address is checked, in ascending
order, before the first byte moves; I is unchanged by the three accesses (R184; D15, log 22). -/

namespace Sys2Proof.Machine

/-- Annn `LD I, addr` (R180). -/
def execLdI (nnn : Imm12) (s : State) : Host.Outcome State Fault Refusal :=
  .next (s.advancePc.setI (zextAddr nnn))

/-- Fx1E `ADD I, Vx`: modulo 2^16, VF unchanged (R181). -/
def execAddI (x : Nibble) (s : State) : Host.Outcome State Fault Refusal :=
  .next (s.advancePc.setI (indexSum s.i (s.reg x)))

/-- Fx29 `LD F, Vx` (R182). -/
def execLdF (x : Nibble) (s : State) : Host.Outcome State Fault Refusal :=
  .next (s.advancePc.setI (glyphAddr (s.reg x)))

/-- Fx33 `LD B, Vx`: the three decimal digits at I, I + 1, I + 2 (R185). -/
def execLdB (x : Nibble) (s : State) : Host.Outcome State Fault Refusal :=
  guarded (.ldB x) (firstFault checkWrite (effAddr s 0) 3) s
    (s.advancePc.setMem (s.mem.writeBytes (effAddr s 0) (decimalDigits (s.reg x))))

/-- Fx55 `LD [I], Vx`: V0 to Vx at I to I + x (R186). -/
def execStoreRegs (x : Nibble) (s : State) : Host.Outcome State Fault Refusal :=
  guarded (.storeRegs x) (firstFault checkWrite (effAddr s 0) (x.toNat + 1)) s
    (s.advancePc.setMem (s.mem.writeBytes (effAddr s 0) (s.regsUpTo x)))

/-- Fx65 `LD Vx, [I]`: V0 to Vx from I to I + x (R187). -/
def execLoadRegs (x : Nibble) (s : State) : Host.Outcome State Fault Refusal :=
  guarded (.loadRegs x) (firstFault checkRead (effAddr s 0) (x.toNat + 1)) s
    (s.advancePc.setRegs 0 (s.mem.readBytes (effAddr s 0) (x.toNat + 1)))

end Sys2Proof.Machine
end

