-- ==== Sys2Proof/Machine/TimerInput.lean ====
section
/-! DEFINITION. The timer and input instructions (43_timer_input.md). Every "register x" is the value V[x], never the
index (R167; 90_conflicts.md C3). -/

namespace Sys2Proof.Machine

/-- Ex9E `SKP Vx`: KeyIndexOutOfRange above 0xF, else skip if the key is held; the latch stays (R160, R166). -/
def execSkp (x : Nibble) (s : State) : Host.Outcome State Fault Refusal :=
  guarded (.skp x) (checkKey (s.reg x)) s (s.advancePc.skipIf (s.keyHeld (keyOperand (s.reg x))))

/-- ExA1 `SKNP Vx`: KeyIndexOutOfRange above 0xF, else skip if the key is not held (R161, R166). -/
def execSknp (x : Nibble) (s : State) : Host.Outcome State Fault Refusal :=
  guarded (.sknp x) (checkKey (s.reg x)) s (s.advancePc.skipIf (!s.keyHeld (keyOperand (s.reg x))))

/-- Fx07 `LD Vx, DT` (R162). -/
def execLdVxDT (x : Nibble) (s : State) : Host.Outcome State Fault Refusal :=
  .next (s.advancePc.setReg x s.dt)

/-- Fx0A `LD Vx, K`: the lowest held key, else paused is set and pc goes back to this word (R163). -/
def execLdVxK (x : Nibble) (s : State) : Host.Outcome State Fault Refusal :=
  match s.lowestKey with
  | some k => .next ((s.advancePc.setReg x (BitVec.ofNat 8 k)).setPaused false)
  | none => .next (s.advancePc.setPaused true).rewindPc

/-- Fx15 `LD DT, Vx` (R164). -/
def execLdDTVx (x : Nibble) (s : State) : Host.Outcome State Fault Refusal :=
  .next (s.advancePc.setDT (s.reg x))

/-- Fx18 `LD ST, Vx` (R165). -/
def execLdSTVx (x : Nibble) (s : State) : Host.Outcome State Fault Refusal :=
  .next (s.advancePc.setST (s.reg x))

end Sys2Proof.Machine
end

