-- ==== Sys2Proof/Machine/Step.lean ====
section
/-! DEFINITION. One step of the model is one cycle of the run loop (60_exceptions.md R214) that no cancellation ends:
fetch, decode, execute (30_encoding.md R90), then the timers' decay (R216). -/

namespace Sys2Proof.Machine

/-- One cycle. A faulting fetch or an illegal word takes the fault (R91, R92, R201), each a next state with the record
in the fault status; while the fault status is set no cycle executes and the machine stops with that record (R204;
log 1, log 16). No host event falls inside a step (R65, R66; log 7). -/
def step (s : State) : Host.Outcome State Fault Refusal :=
  match s.fault with
  | some r => .fault (.halted r)
  | none =>
    match s.fetch with
    | .error f => .next (s.takeFault none f)
    | .ok w =>
      match decode w with
      | .error _ => .next (s.takeFault (some w) decodeFault)
      | .ok i => endOfCycle (exec i s)

/-- The state with an instruction word stored where the next fetch reads it, pc and pc + 1, as a load from outside
would place it (log 28): the glyph check of programs does not apply. A set fault status is cleared, since no fetch
happens while it is set. -/
def State.withFetchWord (s : State) (nbits w : Nat) : State :=
  { s with
    mem := (s.mem.write s.pc.toNat (highByte (tableWord nbits w))).write (s.pc.toNat + 1) (lowByte (tableWord nbits w))
    fault := none }

end Sys2Proof.Machine
end

