-- ==== Sys2Proof/Machine/HostPort.lean ====
section
/-! DEFINITION. The ports of THE CORE (60_exceptions.md R222) and what the host may do with them (R224): the cycle with
its cancellation check (R214, R215), the run (R213), the display snapshot (R221), and the moves of a host session. The
host acts only between two cycles (20_memory.md R65, R66; D18, log 7). -/

namespace Sys2Proof.Machine

/-- How one cycle ends (R214). -/
inductive CycleEnd where
  /-- the cancellation was seen before the fetch -/
  | cancelled
  /-- the step raised this fault, or it was set already -/
  | faulted (r : FaultRecord)
  /-- the run goes on -/
  | goOn
  deriving DecidableEq, Repr

/-- `cycle()` (R214): the cancellation check once per cycle, before the fetch (R215), then the step and the decay. -/
def cycle (cancelRequested : Bool) (s : State) : Host.Outcome (State × CycleEnd) Fault Refusal :=
  if cancelRequested then .next (s, .cancelled)
  else
    match step s with
    | .next t =>
      match t.fault with
      | some r => .next (t, .faulted r)
      | none => .next (t, .goOn)
    | .fault (.halted r) => .next (s, .faulted r)
    | .refused r => .refused r

/-- How a run ends (R213, R259). -/
inductive RunEnd where
  | cancelled
  | faulted (r : FaultRecord)
  deriving DecidableEq, Repr

/-- `run(cancellation signal)` (R213) where no host event falls between its cycles and the cancellation is seen before
cycle `n + 1`: the state it leaves and its outcome. A fault status already set returns at once (R204). -/
def run : Nat → State → Host.Outcome (State × RunEnd) Fault Refusal
  | 0, s =>
    match s.fault with
    | some r => .next (s, .faulted r)
    | none => .next (s, .cancelled)
  | n + 1, s =>
    match cycle false s with
    | .next (t, .goOn) => run n t
    | .next (t, .faulted r) => .next (t, .faulted r)
    | .next (t, .cancelled) => .next (t, .cancelled)
    | .fault f => .fault f
    | .refused r => .refused r

/-- One display cell as the byte the snapshot delivers (R221). -/
def cellByte (b : Bool) : Byte := if b then 1 else 0

/-- `display_buffer()` (R221): 2048 bytes, row-major, byte `r * 64 + c` holding `Disp[r][c]` (D21, log 26). -/
def State.displayBuffer (s : State) : List Byte := s.disp.toList.flatMap (fun row => row.toList.map cellByte)

/-- The snapshot of the display before the first reset (R224): a cell is on or off (R31), and which is undefined (R42).
The free value of log 37. -/
def powerOnSnapshot : List Byte :=
  (List.range Config.dispH).flatMap (fun r => (List.range Config.dispW).map (fun c => cellByte (Config.powerOnCell r c)))

/-- `st_out` (R222, R223): the current value of ST (D24, log 32). -/
def State.stOut (s : State) : Byte := s.st

/-- `key_down(k)` (R220). -/
def State.keyDown (s : State) (k : Nibble) : State := s.setKey k true

/-- `key_up(k)` (R220). -/
def State.keyUp (s : State) (k : Nibble) : State := s.setKey k false

/-- What the host does (R222, R224). A key identifier is a nibble: one out of range cannot reach the core (R220). -/
inductive HostMove where
  | reset
  | load (source : List Byte)
  | run
  | cancel
  | cycleEnable
  | keyEvent (k : Nibble) (down : Bool)
  | readDisplay
  deriving DecidableEq, Repr

/-- What a move gives back (R224). -/
inductive HostReply where
  | nothing
  | ended (e : RunEnd)
  | snapshot (cells : List Byte)
  deriving DecidableEq, Repr

/-- A host session: the core, absent before the first reset (R42), whether a run is active, and whether it has been
asked to cancel (R215). -/
structure Session where
  core : Option State
  running : Bool
  cancelRequested : Bool
  deriving DecidableEq, Repr

/-- The session before the first reset: the core's state is undefined, so there is none (R42; D22, log 8). -/
def Session.powerOn : Session := ⟨none, false, false⟩

/-- One cycle of the active run (R214): a run that ends is no longer active and returns its outcome (R213). -/
def Session.runCycle (S : Session) (s : State) : Host.Outcome (Session × HostReply) Fault Refusal :=
  match cycle S.cancelRequested s with
  | .next (t, .goOn) => .next (⟨some t, true, S.cancelRequested⟩, .nothing)
  | .next (t, .cancelled) => .next (⟨some t, false, false⟩, .ended .cancelled)
  | .next (t, .faulted r) => .next (⟨some t, false, false⟩, .ended (.faulted r))
  | .fault f => .fault f
  | .refused r => .refused r

/-- A move on a core that has been reset, with the conditions of R224: reset, load and run only when no run is active
(D22, log 8); a cycle or a cancel request only when one is (log 25); key events and display reads at any time.
DESIGN CHOICE (log 36, unsafe): a cancel request, once made, stays until the next enabled cycle samples it; the spec is
silent on a host that withdraws it, and no move does. -/
def Session.moveOn (S : Session) (s : State) : HostMove → Host.Outcome (Session × HostReply) Fault Refusal
  | .reset => if S.running then .refused .runIsActive else .next (⟨some s.resetAgain, false, false⟩, .nothing)
  | .load source => if S.running then .refused .runIsActive else .next (⟨some (s.load source), false, false⟩, .nothing)
  | .run =>
    if S.running then .refused .runIsActive
    else
      match s.fault with
      | some r => .next (⟨some s, false, false⟩, .ended (.faulted r))
      | none => .next (⟨some s, true, false⟩, .nothing)
  | .cancel => if S.running then .next (⟨some s, true, true⟩, .nothing) else .refused .noRunIsActive
  | .cycleEnable => if S.running then S.runCycle s else .refused .noRunIsActive
  | .keyEvent k down => .next (⟨some (s.setKey k down), S.running, S.cancelRequested⟩, .nothing)
  | .readDisplay => .next (S, .snapshot s.displayBuffer)

/-- One move of the host. Before the first reset only `reset` starts the core (R42, R241). A key event is accepted at
any time (R220, R224), but the latch it sets is part of the undefined state, and the reset clears it (R242). The display
is read at any time too (R224): the snapshot is then complete and its cells are free (log 37). -/
def Session.move (S : Session) (m : HostMove) : Host.Outcome (Session × HostReply) Fault Refusal :=
  match S.core with
  | some s => S.moveOn s m
  | none =>
    match m with
    | .reset => .next (⟨some State.reset, false, false⟩, .nothing)
    | .load _ => .refused .beforeFirstReset
    | .run => .refused .beforeFirstReset
    | .cancel => .refused .beforeFirstReset
    | .cycleEnable => .refused .beforeFirstReset
    | .keyEvent _ _ => .next (S, .nothing)
    | .readDisplay => .next (S, .snapshot powerOnSnapshot)

end Sys2Proof.Machine
end

