-- ==== Sys2Proof/Safety.lean ====
section
/-! DEFINITION. The terms the statements use: what each instruction may write (10_state.md R20 to R36), the frame of a
step, the invariants of the machine (R25, R38, R225), the machine's next instruction, and a sprite's pixels as a
picture (41_display.md R133, R134). -/

namespace Sys2Proof.Machine

/-- The state outside the general registers and memory (R36, R31, R32), part by part. -/
inductive Part where
  | pc | i | sp | stk | dt | st | disp | key | paused | fault | draws
  deriving DecidableEq, Repr

/-- The part holds the same in both states. -/
def Part.same (p : Part) (s t : State) : Prop :=
  match p with
  | .pc => t.pc = s.pc
  | .i => t.i = s.i
  | .sp => t.sp = s.sp
  | .stk => t.stk = s.stk
  | .dt => t.dt = s.dt
  | .st => t.st = s.st
  | .disp => t.disp = s.disp
  | .key => t.key = s.key
  | .paused => t.paused = s.paused
  | .fault => t.fault = s.fault
  | .draws => t.draws = s.draws

/-- The instruction names the part among those it writes (R26, R27, R29 to R33, R36); every instruction may write pc
(R23). -/
def writesPart (i : Instr) (p : Part) : Bool :=
  match i with
  | .cls => p == .pc || p == .disp
  | .ret => p == .pc || p == .sp
  | .jp _ => p == .pc
  | .call _ => p == .pc || p == .sp || p == .stk
  | .seByte _ _ => p == .pc
  | .sneByte _ _ => p == .pc
  | .seReg _ _ => p == .pc
  | .ldByte _ _ => p == .pc
  | .addByte _ _ => p == .pc
  | .ldReg _ _ => p == .pc
  | .orReg _ _ => p == .pc
  | .andReg _ _ => p == .pc
  | .xorReg _ _ => p == .pc
  | .addReg _ _ => p == .pc
  | .subReg _ _ => p == .pc
  | .shr _ _ => p == .pc
  | .subn _ _ => p == .pc
  | .shl _ _ => p == .pc
  | .sneReg _ _ => p == .pc
  | .ldI _ => p == .pc || p == .i
  | .jpV0 _ => p == .pc
  | .rnd _ _ => p == .pc || p == .draws
  | .drw _ _ _ => p == .pc || p == .disp
  | .skp _ => p == .pc
  | .sknp _ => p == .pc
  | .ldVxDT _ => p == .pc
  | .ldVxK _ => p == .pc || p == .paused
  | .ldDTVx _ => p == .pc || p == .dt
  | .ldSTVx _ => p == .pc || p == .st
  | .addI _ => p == .pc || p == .i
  | .ldF _ => p == .pc || p == .i
  | .ldB _ => p == .pc
  | .storeRegs _ => p == .pc
  | .loadRegs _ => p == .pc

/-- The instruction names the register among those it writes: its destination, and VF where it writes the flag
(R20, R21, R22). -/
def writesReg (i : Instr) (r : Nibble) : Bool :=
  match i with
  | .cls => false
  | .ret => false
  | .jp _ => false
  | .call _ => false
  | .seByte _ _ => false
  | .sneByte _ _ => false
  | .seReg _ _ => false
  | .ldByte x _ => r == x
  | .addByte x _ => r == x
  | .ldReg x _ => r == x
  | .orReg x _ => r == x
  | .andReg x _ => r == x
  | .xorReg x _ => r == x
  | .addReg x _ => r == x || r == 0xF
  | .subReg x _ => r == x || r == 0xF
  | .shr x _ => r == x || r == 0xF
  | .subn x _ => r == x || r == 0xF
  | .shl x _ => r == x || r == 0xF
  | .sneReg _ _ => false
  | .ldI _ => false
  | .jpV0 _ => false
  | .rnd x _ => r == x
  | .drw _ _ _ => r == 0xF
  | .skp _ => false
  | .sknp _ => false
  | .ldVxDT x => r == x
  | .ldVxK x => r == x
  | .ldDTVx _ => false
  | .ldSTVx _ => false
  | .addI _ => false
  | .ldF _ => false
  | .ldB _ => false
  | .storeRegs _ => false
  | .loadRegs x => decide (r.toNat ≤ x.toNat)

/-- How many bytes the instruction stores from I up (R60): 3 for Fx33, x + 1 for Fx55, none for every other. -/
def storeWidth (i : Instr) : Nat :=
  match i with
  | .ldB _ => 3
  | .storeRegs x => x.toNat + 1
  | _ => 0

/-- The shapes the frames are stated by. -/
inductive Shape where
  /-- Fx33, Fx55 -/
  | storing
  /-- 00EE, 2nnn -/
  | stack
  /-- 00E0, Dxyn -/
  | display
  /-- every other instruction -/
  | register
  deriving DecidableEq, Repr

/-- The shape of an instruction. -/
def shapeOf (i : Instr) : Shape :=
  match i with
  | .cls => .display
  | .drw _ _ _ => .display
  | .ret => .stack
  | .call _ => .stack
  | .ldB _ => .storing
  | .storeRegs _ => .storing
  | _ => .register

/-- The frame of an instruction: every part, register and byte of memory it does not name among those it writes is as
before. The stored bytes are the `storeWidth` bytes from the effective address of byte 0 up (R57). -/
def Frame (i : Instr) (s t : State) : Prop :=
  (∀ p, writesPart i p = false → p.same s t) ∧
  (∀ r, writesReg i r = false → t.reg r = s.reg r) ∧
  (∀ a, ¬ (effAddr s 0 ≤ a ∧ a < effAddr s 0 + storeWidth i) → t.mem.read a = s.mem.read a)

/-- The instruction runs: `exec` answers the next state `t`, in which nothing but what it names has changed. -/
def Completes (i : Instr) (s t : State) : Prop := exec i s = .next t ∧ Frame i s t

/-- The state differs in nothing but a fault record in the fault status (R201, R203). -/
def FaultTaken (s t : State) : Prop := ∃ r, t = { s with fault := some r }

/-- The next instruction: the word at pc decodes to `i` (R85, R90). -/
def Fetches (s : State) (i : Instr) : Prop := ∃ w, s.fetch = .ok w ∧ decode w = .ok i

/-- `n` cycles, with no host event between them, lead from `s` to `t`. -/
def Steps : Nat → State → State → Prop
  | 0, s, t => t = s
  | n + 1, s, t => ∃ u, step s = .next u ∧ Steps n u t

/-- Byte `k` of an access from I up lies in memory (R55). -/
def Readable (s : State) (k : Nat) : Prop := effAddr s k < Config.memSize

/-- Byte `k` of an access from I up may be written: in memory and outside the glyph table (R54, R56). -/
def Writable (s : State) (k : Nat) : Prop :=
  effAddr s k < Config.memSize ∧ ¬ (Config.glyphBase ≤ effAddr s k ∧ effAddr s k ≤ Config.glyphEnd)

/-- Memory is in its canonical form, lists only addresses that exist, and no glyph address (R50, R54, R38). -/
def MemoryInv (s : State) : Prop :=
  s.mem.wf = true ∧ ∀ c ∈ s.mem, c.1 < Config.memSize ∧ inGlyphTable c.1 = false

/-- pc never passes 0x10FE (R25), which needs that no return address in use passes 0x1000. -/
def PcInv (s : State) : Prop :=
  s.pc.toNat ≤ 0x10FE ∧ ∀ j : Fin 32, j.val < s.sp.val → s.stk[j].toNat ≤ 0x1000

/-- While paused the machine stands at an Fx0A (R163, R225). -/
def KeyWaitInv (s : State) : Prop := s.paused = true → ∃ x, Fetches s (.ldVxK x)

/-- The sprite of Dxyn as a picture (R133, R134): cell (r, c) is under a drawn sprite bit that is 1. Row `r - cy` is the
byte at `I + (r - cy)`, its most significant bit at column `cx`; rows past the bottom edge are not drawn. -/
def spritePixel (s : State) (x y n : Nibble) (r c : Nat) : Bool :=
  decide (startRow (s.reg y) ≤ r ∧ r < startRow (s.reg y) + n.toNat ∧ r < Config.dispH ∧
    startColumn (s.reg x) ≤ c ∧ c < startColumn (s.reg x) + 8 ∧ c < Config.dispW) &&
  (s.mem.read (effAddr s (r - startRow (s.reg y)))).getLsbD (7 - (c - startColumn (s.reg x)))

end Sys2Proof.Machine
end

