-- ==== Sys2Proof/Certificates/Slice0/Obligations.lean ====
section
/-! DEFINITION. The statements for the provers, from the numbered rules of spec/. Where a statement rests on a decision
the spec marks as its own (`Dn` of 92_eei_decisions.md), or on a choice of the model (a log entry), its docstring says
so. `Completes i s t` is: exec answers the next state t, and nothing changed but what the instruction names. -/

open Sys2Proof Sys2Proof.Machine

/-! ### Encoding (30_encoding.md) -/

/-- Decoding the word of an instruction gives it back, for every instruction and every value of every field
(the formats of R83). -/
def Obligations.DecodeOfEncodeGivesInstr : Prop := ∀ i : Instr, decode (encode i) = .ok i

/-- Encoding a decoded word gives it back: the decoder drops no bit, the ignored y of 8xy6 and 8xyE among them (R93). -/
def Obligations.EncodeOfDecodeGivesWord : Prop := ∀ (w : Word) (i : Instr), decode w = .ok i → encode i = w

/-- R85: a word decodes to the instruction of the row it matches, and to an error exactly when it matches no row. That
no word matches two rows, which follows, is an inference the spec marks as its own; that the rows 5xy0 and 9xy0 fix n is
its decision D10 (log 17). -/
def Obligations.DecodeFollowsOpcodeTable : Prop :=
  ∀ w : Word,
    (∀ (k : Nat) (r : OpcodeRow), opcodeTable[k]? = some r →
      (r.matchesWord w = true ↔ ∃ i, decode w = .ok i ∧ i.row = k)) ∧
    ((∀ r ∈ opcodeTable, r.matchesWord w = false) ↔ ∃ e, decode w = .error e)

/-- R86, R91: the illegal words are exactly those of R86's table (its rows of 5xyn and 9xyn are the spec's decision
D10), and a cycle that fetches one raises DecodeError with the word recorded and nothing else changed (D7, D8). -/
def Obligations.IllegalWordsFault : Prop :=
  (∀ w : Word, (∃ e, decode w = .error e) ↔ illegalWord w = true) ∧
  (∀ (s : State) (w : Word), s.fault = none → s.fetch = .ok w → illegalWord w = true →
    step s = .next { s with fault := some ⟨.decodeError, s.pc, some w, none⟩ })

/-- Words the spec writes out in its rules' examples and test vectors, one or more for each leading nibble (R81, R84),
decode to what they stand for. -/
def Obligations.SpecWordsDecode : Prop :=
  decode 0x00E0 = .ok .cls ∧ decode 0x00EE = .ok .ret ∧ decode 0x1234 = .ok (.jp 0x234) ∧
  decode 0x2300 = .ok (.call 0x300) ∧ decode 0x4111 = .ok (.sneByte 1 0x11) ∧ decode 0x5120 = .ok (.seReg 1 2) ∧
  decode 0x7101 = .ok (.addByte 1 0x01) ∧ decode 0xA123 = .ok (.ldI 0x123) ∧
  decode 0x3110 = .ok (.seByte 1 0x10) ∧ decode 0x63AB = .ok (.ldByte 3 0xAB) ∧ decode 0x8124 = .ok (.addReg 1 2) ∧
  decode 0x8156 = .ok (.shr 1 5) ∧ decode 0x9120 = .ok (.sneReg 1 2) ∧ decode 0xB300 = .ok (.jpV0 0x300) ∧
  decode 0xC30F = .ok (.rnd 3 0x0F) ∧ decode 0xD015 = .ok (.drw 0 1 5) ∧ decode 0xE1A1 = .ok (.sknp 1) ∧
  decode 0xF40A = .ok (.ldVxK 4) ∧ decode 0xF255 = .ok (.storeRegs 2)

/-! ### The cycle (30_encoding.md R90 to R94, 60_exceptions.md) -/

/-- R90, R214: while no fault is recorded, a cycle at a word that decodes to `i` runs `exec i` and then the end of the
cycle. That the decay comes last is the spec's decision D17. -/
def Obligations.StepRunsFetchedInstr : Prop :=
  ∀ (s : State) (i : Instr), s.fault = none → Fetches s i → step s = endOfCycle (exec i s)

/-- R58, R90: the word at pc is Mem[pc] * 256 + Mem[pc + 1], at an odd pc too (D4). -/
def Obligations.FetchIsBigEndian : Prop :=
  ∀ s : State, s.pc.toNat + 1 < 4096 →
    ∃ w, s.fetch = .ok w ∧ w.toNat = (s.mem.read s.pc.toNat).toNat * 256 + (s.mem.read (s.pc.toNat + 1)).toNat

/-- R92 (D2): a fetch whose first or second byte is at 4096 or more raises AddressOutOfRange with the first such
address, no word, and pc as fault_pc; nothing else changes. -/
def Obligations.FetchOutsideMemoryFaults : Prop :=
  ∀ s : State, s.fault = none → 4096 ≤ s.pc.toNat + 1 →
    step s = .next { s with
      fault := some ⟨.addressOutOfRange, s.pc, none, some (if 4096 ≤ s.pc.toNat then s.pc.toNat else s.pc.toNat + 1)⟩ }

/-- R216 (D17): at the end of a cycle each timer above 0 goes down by 1, none goes below 0, and neither moves while
paused or in a faulting cycle (R217); nothing else changes. -/
def Obligations.EndOfCycleDecaysTimers : Prop :=
  ∀ t : State, ∃ u, endOfCycle (.next t) = .next u ∧
    u = { t with dt := u.dt, st := u.st } ∧
    (t.fault = none → t.paused = false → u.dt.toNat = t.dt.toNat - 1 ∧ u.st.toNat = t.st.toNat - 1) ∧
    (t.paused = true → u = t) ∧ (t.fault ≠ none → u = t)

/-- R204, R213 (D9, log 16): while the fault status is set no cycle executes, and a run returns the same fault at once
and leaves the state alone. -/
def Obligations.FaultStatusStopsMachine : Prop :=
  ∀ (s : State) (r : FaultRecord), s.fault = some r →
    step s = .fault (.halted r) ∧ cycle false s = .next (s, .faulted r) ∧ ∀ n, run n s = .next (s, .faulted r)

/-- R203 (D7): a cycle that raises a fault leaves every register, I, SP, the stack, memory, the display, the timers and
paused as they were, and pc at the faulting instruction, which the record names. -/
def Obligations.FaultingStepsArePrecise : Prop :=
  ∀ (s t : State) (r : FaultRecord), s.fault = none → step s = .next t → t.fault = some r →
    t = { s with fault := some r } ∧ r.faultPc = s.pc

/-- R200, R202 (D2, D3, D8, D13; D10 for the illegal words): each code is raised only by the instructions and the
conditions R200 lists, with the word and the info R202 records. -/
def Obligations.FaultRecordsNameTheirCause : Prop :=
  ∀ (s t : State) (r : FaultRecord), s.fault = none → step s = .next t → t.fault = some r →
    match r.code with
    | .decodeError => ∃ w, s.fetch = .ok w ∧ illegalWord w = true ∧ r.word = some w ∧ r.addr = none
    | .stackOverflow => ∃ nnn, Fetches s (.call nnn) ∧ s.sp.val = 32 ∧ r.word = some (encode (.call nnn)) ∧ r.addr = none
    | .stackUnderflow => Fetches s .ret ∧ s.sp.val = 0 ∧ r.word = some (encode .ret) ∧ r.addr = none
    | .addressOutOfRange =>
      (r.word = none ∧ 4096 ≤ s.pc.toNat + 1 ∧ ∃ a, r.addr = some a ∧ 4096 ≤ a ∧ (a = s.pc.toNat ∨ a = s.pc.toNat + 1)) ∨
      ∃ i k, Fetches s i ∧ r.word = some (encode i) ∧ r.addr = some (effAddr s k) ∧ 4096 ≤ effAddr s k ∧
        ((∃ x y n, i = .drw x y n ∧ k < n.toNat) ∨ (∃ x, i = .ldB x ∧ k < 3) ∨
          (∃ x, i = .storeRegs x ∧ k ≤ x.toNat) ∨ (∃ x, i = .loadRegs x ∧ k ≤ x.toNat))
    | .glyphWrite =>
      ∃ i k, Fetches s i ∧ r.word = some (encode i) ∧ r.addr = some (effAddr s k) ∧
        0x050 ≤ effAddr s k ∧ effAddr s k ≤ 0x09F ∧
        ((∃ x, i = .ldB x ∧ k < 3) ∨ (∃ x, i = .storeRegs x ∧ k ≤ x.toNat))
    | .keyIndexOutOfRange =>
      ∃ i x, Fetches s i ∧ (i = .skp x ∨ i = .sknp x) ∧ 15 < (s.reg x).toNat ∧
        r.word = some (encode i) ∧ r.addr = some (s.reg x).toNat

/-! ### Reset and load (70_reset_and_hazards.md) -/

/-- R39: every piece of state right after reset. The glyph bytes are the parameter GLYPHS, whatever it is. -/
def Obligations.ResetLeavesTheseValues : Prop :=
  State.reset.pc = 0x200 ∧ State.reset.i = 0 ∧ (∀ r, State.reset.reg r = 0) ∧ State.reset.sp.val = 0 ∧
  (∀ k, State.reset.keyHeld k = false) ∧ State.reset.paused = false ∧
  (∀ r < 32, ∀ c < 64, State.reset.disp.cell r c = false) ∧
  (∀ g < 16, ∀ k < 5, State.reset.mem.read (0x050 + 5 * g + k) = Config.glyph g k) ∧
  (∀ a < 4096, ¬ (0x050 ≤ a ∧ a ≤ 0x09F) → State.reset.mem.read a = 0) ∧ State.reset.fault = none

/-- R40, R42, R224, R241, R242 (D16, D22): before the first reset load, run, cancel and a cycle enable are refused, a
key event leaves nothing behind, and a display read gives a complete snapshot, 2048 cells each off or on, whose values
are free (log 37); reset, whenever no run is active, gives the reset state with DT = ST = 0, whatever came before (but
for the model's own count of draws, log 6). -/
def Obligations.ResetIsTheWayIn : Prop :=
  (∀ m, m ≠ .reset → (∀ k down, m ≠ .keyEvent k down) → m ≠ .readDisplay →
    Session.powerOn.move m = .refused .beforeFirstReset) ∧
  (∀ k down, Session.powerOn.move (.keyEvent k down) = .next (Session.powerOn, .nothing)) ∧
  (∃ cells, Session.powerOn.move .readDisplay = .next (Session.powerOn, .snapshot cells) ∧
    cells.length = 2048 ∧ ∀ b ∈ cells, b = 0 ∨ b = 1) ∧
  (∀ S : Session, S.running = false → ∃ t,
    S.move .reset = .next (⟨some t, false, false⟩, .nothing) ∧ t.dt = 0 ∧ t.st = 0 ∧
      t = { State.reset with draws := t.draws })

/-- R243, R244: load puts byte k of the source at 0x200 + k for the first 3584 bytes, drops the rest, and leaves every
other byte and everything that is not memory as it was. -/
def Obligations.LoadPlacesTheProgram : Prop :=
  ∀ (s : State) (source : List Byte), ∃ m, s.load source = { s with mem := m } ∧
    (∀ k b, k < 3584 → source[k]? = some b → m.read (0x200 + k) = b) ∧
    (∀ a, a < 0x200 ∨ 0x200 + min source.length 3584 ≤ a → m.read a = s.mem.read a)

/-! ### Timers (10_state.md section 5, 60_exceptions.md R216) -/

/-- R29, R30: a cycle never raises DT unless its instruction is Fx15, nor ST unless it is Fx18. -/
def Obligations.TimersOnlyFallBetweenWrites : Prop :=
  ∀ s t : State, step s = .next t →
    ((¬ ∃ x, Fetches s (.ldDTVx x)) → t.dt.toNat ≤ s.dt.toNat) ∧
    ((¬ ∃ x, Fetches s (.ldSTVx x)) → t.st.toNat ≤ s.st.toNat)

/-- R252: an Fx07 executed k cycles after an Fx15 of value v, no cycle between paused or faulting and none setting DT
again, reads max(v - k, 0). `f j` is the state after j cycles, with no host event between them (D18, log 7); the place of
the decay is D17 (log 23). -/
def Obligations.DelayTimerReadBack : Prop :=
  ∀ (f : Nat → State) (x y : Nibble) (k : Nat), 0 < k → Fetches (f 0) (.ldDTVx x) →
    (∀ j < k, step (f j) = .next (f (j + 1)) ∧ (f (j + 1)).paused = false ∧ (f (j + 1)).fault = none) →
    (∀ j, 0 < j → j < k → ¬ ∃ z, Fetches (f j) (.ldDTVx z)) →
    ∃ t, exec (.ldVxDT y) (f k) = .next t ∧ (t.reg y).toNat = ((f 0).reg x).toNat - k

/-! ### Invariants of every cycle -/

/-- R38, R50, R54: memory keeps its canonical form and lists only existing addresses outside the glyph table. -/
def Obligations.StepKeepsMemoryInv : Prop := ∀ s t : State, MemoryInv s → step s = .next t → MemoryInv t

/-- R25 (derived there; it rests on D2 and D5, and on D7: a faulting step leaves pc): pc never passes 0x10FE, nor a return
address in use 0x1000. -/
def Obligations.StepKeepsPcInv : Prop := ∀ s t : State, PcInv s → step s = .next t → PcInv t

/-- R33, R163, R225: while paused the machine stands at an Fx0A, which every cycle executes again. -/
def Obligations.StepKeepsKeyWaitInv : Prop := ∀ s t : State, KeyWaitInv s → step s = .next t → KeyWaitInv t

/-- The three invariants hold right after reset. -/
def Obligations.ResetMeetsInvariants : Prop :=
  MemoryInv State.reset ∧ PcInv State.reset ∧ KeyWaitInv State.reset

/-- R54 (D3): no cycle changes a byte of the glyph table, from any state. -/
def Obligations.GlyphTableIsReadOnly : Prop :=
  ∀ s t : State, step s = .next t → ∀ a, 0x050 ≤ a → a ≤ 0x09F → t.mem.read a = s.mem.read a

/-! ### Frames and writers -/

/-- The frame of every instruction but 00E0, 00EE, 2nnn, Dxyn, Fx33 and Fx55: unless the fault status alone changed,
nothing changed but what the instruction names, and every byte of memory reads as before. That Fx65 leaves I is the spec's
decision D15 (log 22), and that a faulting form changes nothing else D7 (log 14). -/
def Obligations.RegisterFormsFrame : Prop :=
  ∀ (i : Instr) (s t : State), shapeOf i = .register → exec i s = .next t → FaultTaken s t ∨ Frame i s t

/-- The frame of Fx33 and Fx55: pc alone outside memory, and in memory only the 3, or x + 1, bytes from I up.
That I is kept is the spec's decision D15 (log 22), and that a faulting form changes nothing else D7 (log 14). -/
def Obligations.StoringFormsFrame : Prop :=
  ∀ (i : Instr) (s t : State), shapeOf i = .storing → exec i s = .next t → FaultTaken s t ∨ Frame i s t

/-- The frame of 2nnn (pc, SP and, of the entries, the one at the old SP) and 00EE (pc and SP). That a popped
entry keeps its content is the model's choice (log 4), and that a faulting form changes nothing else the spec's decision
D7 (log 14). -/
def Obligations.StackFormsFrame : Prop :=
  ∀ (i : Instr) (s t : State), shapeOf i = .stack → exec i s = .next t →
    FaultTaken s t ∨ (Frame i s t ∧ ∀ j : Fin 32, j.val ≠ s.sp.val → t.stk[j] = s.stk[j])

/-- The frame of 00E0 (pc and the display) and Dxyn (pc, the display and VF). That a faulting Dxyn changes nothing else
is the spec's decision D7 (log 14). -/
def Obligations.DisplayFormsFrame : Prop :=
  ∀ (i : Instr) (s t : State), shapeOf i = .display → exec i s = .next t → FaultTaken s t ∨ Frame i s t

/-- R26, R27, R31, R32, R33 over whole cycles: I changes only by Annn, Fx1E and Fx29; the stack only by 2nnn and 00EE;
the display only by 00E0 and Dxyn; paused only by Fx0A; the input latch by no cycle. That Fx33, Fx55 and Fx65 keep I is
D15 (log 22), and that a faulting step changes none of them D7 (log 14). -/
def Obligations.OnlyNamedInstrsWrite : Prop :=
  ∀ s t : State, step s = .next t →
    (t.i ≠ s.i → ∃ i, Fetches s i ∧ ((∃ nnn, i = .ldI nnn) ∨ (∃ x, i = .addI x) ∨ (∃ x, i = .ldF x))) ∧
    ((t.sp ≠ s.sp ∨ t.stk ≠ s.stk) → ∃ i, Fetches s i ∧ (i = .ret ∨ ∃ nnn, i = .call nnn)) ∧
    (t.disp ≠ s.disp → ∃ i, Fetches s i ∧ (i = .cls ∨ ∃ x y n, i = .drw x y n)) ∧
    (t.paused ≠ s.paused → ∃ x, Fetches s (.ldVxK x)) ∧
    t.key = s.key

/-- R22: an instruction that changes VF is one of the six flag writers, or has register 15 as its ordinary destination
(for Fx65, x = 15). -/
def Obligations.OnlyFlagWritersWriteVF : Prop :=
  ∀ (i : Instr) (s t : State), exec i s = .next t → t.reg 0xF ≠ s.reg 0xF →
    (∃ x y, i = .addReg x y ∨ i = .subReg x y ∨ i = .shr x y ∨ i = .subn x y ∨ i = .shl x y) ∨
    (∃ x y n, i = .drw x y n) ∨
    (∃ nn, i = .ldByte 0xF nn ∨ i = .addByte 0xF nn ∨ i = .rnd 0xF nn) ∨
    (∃ y, i = .ldReg 0xF y ∨ i = .orReg 0xF y ∨ i = .andReg 0xF y ∨ i = .xorReg 0xF y) ∨
    i = .ldVxDT 0xF ∨ i = .ldVxK 0xF ∨ i = .loadRegs 0xF

/-! ### Arithmetic and logic (40_alu.md) -/

/-- R105, R106, R107: 6xnn loads nn, 7xnn adds nn modulo 256, 8xy0 copies; each with its word, no flag, no fault, and
pc advanced by 2; x = 15 writes VF as an ordinary register. -/
def Obligations.LoadsAndAddImmediate : Prop :=
  ∀ (s : State) (x y : Nibble) (nn : Byte),
    ((encode (.ldByte x nn)).toNat = 0x6000 + x.toNat * 256 + nn.toNat ∧
      ∃ t, Completes (.ldByte x nn) s t ∧ t.reg x = nn ∧ t.pc = s.pc + 2) ∧
    ((encode (.addByte x nn)).toNat = 0x7000 + x.toNat * 256 + nn.toNat ∧
      ∃ t, Completes (.addByte x nn) s t ∧ (t.reg x).toNat = ((s.reg x).toNat + nn.toNat) % 256 ∧ t.pc = s.pc + 2) ∧
    ((encode (.ldReg x y)).toNat = 0x8000 + x.toNat * 256 + y.toNat * 16 ∧
      ∃ t, Completes (.ldReg x y) s t ∧ t.reg x = s.reg y ∧ t.pc = s.pc + 2)

/-- R108, R109, R110: 8xy1, 8xy2, 8xy3 bit by bit, with their words; no flag, no fault, pc advanced by 2. -/
def Obligations.LogicOperations : Prop :=
  ∀ (s : State) (x y : Nibble),
    ((encode (.orReg x y)).toNat = 0x8001 + x.toNat * 256 + y.toNat * 16 ∧
      ∃ t, Completes (.orReg x y) s t ∧ t.pc = s.pc + 2 ∧
        ∀ k < 8, (t.reg x).getLsbD k = ((s.reg x).getLsbD k || (s.reg y).getLsbD k)) ∧
    ((encode (.andReg x y)).toNat = 0x8002 + x.toNat * 256 + y.toNat * 16 ∧
      ∃ t, Completes (.andReg x y) s t ∧ t.pc = s.pc + 2 ∧
        ∀ k < 8, (t.reg x).getLsbD k = ((s.reg x).getLsbD k && (s.reg y).getLsbD k)) ∧
    ((encode (.xorReg x y)).toNat = 0x8003 + x.toNat * 256 + y.toNat * 16 ∧
      ∃ t, Completes (.xorReg x y) s t ∧ t.pc = s.pc + 2 ∧
        ∀ k < 8, (t.reg x).getLsbD k = ((s.reg x).getLsbD k ^^ (s.reg y).getLsbD k))

/-- R101: 7xnn and 8xy4 keep the unbounded sum modulo 256; 8xy4 sets VF to 1 iff the sum exceeds 255 (x ≠ 15, as the
rule says; the other form is FlagRegisterAsDestination), 7xnn records nothing. -/
def Obligations.AdditionSetsCarry : Prop :=
  ∀ (s : State) (x y : Nibble) (nn : Byte),
    (∃ t, Completes (.addByte x nn) s t ∧ t.pc = s.pc + 2 ∧
      (t.reg x).toNat = ((s.reg x).toNat + nn.toNat) % 256 ∧ (x ≠ 0xF → t.reg 0xF = s.reg 0xF)) ∧
    (x ≠ 0xF → ∃ t, Completes (.addReg x y) s t ∧ t.pc = s.pc + 2 ∧
      (t.reg x).toNat = ((s.reg x).toNat + (s.reg y).toNat) % 256 ∧
      (t.reg 0xF).toNat = if 255 < (s.reg x).toNat + (s.reg y).toNat then 1 else 0)

/-- R102: 8xy5 and 8xy7 subtract modulo 256, and VF is 1 iff the minuend is strictly greater (x ≠ 15, as the rule
says; the other form is FlagRegisterAsDestination); y = 15 reads VF as it was before. -/
def Obligations.SubtractionSetsStrictFlag : Prop :=
  ∀ (s : State) (x y : Nibble), x ≠ 0xF →
    (∃ t, Completes (.subReg x y) s t ∧ t.pc = s.pc + 2 ∧
      (t.reg x).toNat = ((s.reg x).toNat + 256 - (s.reg y).toNat) % 256 ∧
      (t.reg 0xF).toNat = if (s.reg y).toNat < (s.reg x).toNat then 1 else 0) ∧
    (∃ t, Completes (.subn x y) s t ∧ t.pc = s.pc + 2 ∧
      (t.reg x).toNat = ((s.reg y).toNat + 256 - (s.reg x).toNat) % 256 ∧
      (t.reg 0xF).toNat = if (s.reg x).toNat < (s.reg y).toNat then 1 else 0)

/-- R103: 8xy6 and 8xyE shift Vx by one bit, a zero enters, and VF is the bit shifted out; the result is the same for
every y, which is not read (R93). x = 15 is FlagRegisterAsDestination. -/
def Obligations.ShiftsPutTheBitInVF : Prop :=
  ∀ (s : State) (x y : Nibble), x ≠ 0xF →
    (∃ t, Completes (.shr x y) s t ∧ t.pc = s.pc + 2 ∧
      (t.reg x).toNat = (s.reg x).toNat / 2 ∧ (t.reg 0xF).toNat = (s.reg x).toNat % 2) ∧
    (∃ t, Completes (.shl x y) s t ∧ t.pc = s.pc + 2 ∧
      (t.reg x).toNat = (s.reg x).toNat * 2 % 256 ∧ (t.reg 0xF).toNat = (s.reg x).toNat / 128)

/-- R116, the spec's decision D6: with x = 15 the later of the two writes stays in VF: the carry for 8Fy4, the
arithmetic result for 8Fy5, 8Fy6, 8Fy7 and 8FyE. -/
def Obligations.FlagRegisterAsDestination : Prop :=
  ∀ (s : State) (y : Nibble),
    (∃ t, Completes (.addReg 0xF y) s t ∧ t.pc = s.pc + 2 ∧
      (t.reg 0xF).toNat = if 255 < (s.reg 0xF).toNat + (s.reg y).toNat then 1 else 0) ∧
    (∃ t, Completes (.subReg 0xF y) s t ∧ t.pc = s.pc + 2 ∧
      (t.reg 0xF).toNat = ((s.reg 0xF).toNat + 256 - (s.reg y).toNat) % 256) ∧
    (∃ t, Completes (.shr 0xF y) s t ∧ t.pc = s.pc + 2 ∧ (t.reg 0xF).toNat = (s.reg 0xF).toNat / 2) ∧
    (∃ t, Completes (.subn 0xF y) s t ∧ t.pc = s.pc + 2 ∧
      (t.reg 0xF).toNat = ((s.reg y).toNat + 256 - (s.reg 0xF).toNat) % 256) ∧
    (∃ t, Completes (.shl 0xF y) s t ∧ t.pc = s.pc + 2 ∧ (t.reg 0xF).toNat = (s.reg 0xF).toNat * 2 % 256)

/-- R117, R118 (D19): Cxnn takes exactly one byte of the random input, whatever byte it is (the free value of log 2),
and keeps the bits nn has; no other bit is set. -/
def Obligations.RandomByteIsMasked : Prop :=
  ∀ (s : State) (x : Nibble) (nn : Byte), ∃ t, Completes (.rnd x nn) s t ∧ t.pc = s.pc + 2 ∧
    t.draws = s.draws + 1 ∧
    ∀ k < 8, (t.reg x).getLsbD k = ((Config.randByte s.draws).getLsbD k && nn.getLsbD k)

/-! ### Display (41_display.md) -/

/-- R131: 00E0 turns every cell off and leaves VF; with its word and pc advanced by 2. -/
def Obligations.ClearTurnsEveryCellOff : Prop :=
  (encode .cls).toNat = 0x00E0 ∧
  ∀ s : State, ∃ t, Completes .cls s t ∧ t.pc = s.pc + 2 ∧ ∀ r < 32, ∀ c < 64, t.disp.cell r c = false

/-- R132, R133, R134 (D6 for x or y = 15; D11: n = 0 draws nothing): where all n sprite bytes lie in memory, Dxyn runs;
each cell of the grid becomes its old value XOR the clipped sprite's bit on it, and VF is 1 iff some drawn bit lands on
a cell that was on. -/
def Obligations.DrawPaintsTheClippedSprite : Prop :=
  ∀ (s : State) (x y n : Nibble), (∀ k < n.toNat, Readable s k) →
    ∃ t, Completes (.drw x y n) s t ∧ t.pc = s.pc + 2 ∧
      (∀ r < 32, ∀ c < 64, t.disp.cell r c = (s.disp.cell r c ^^ spritePixel s x y n r c)) ∧
      ((∃ r < 32, ∃ c < 64, spritePixel s x y n r c = true ∧ s.disp.cell r c = true) → t.reg 0xF = 1) ∧
      ((∀ r < 32, ∀ c < 64, spritePixel s x y n r c = true → s.disp.cell r c = false) → t.reg 0xF = 0)

/-- R138 (derived there): drawing the same sprite at the same position twice restores every cell; over cells that are
all off, if some set bit is drawn, VF is 0 after the first draw and 1 after the second. -/
def Obligations.DrawingTwiceRestores : Prop :=
  ∀ (s t u w : State) (x y n : Nibble), (∀ k < n.toNat, Readable s k) → exec (.drw x y n) s = .next t →
    u.disp = t.disp → u.i = s.i → (∀ a, u.mem.read a = s.mem.read a) → u.reg x = s.reg x → u.reg y = s.reg y →
    exec (.drw x y n) u = .next w →
    (∀ r < 32, ∀ c < 64, w.disp.cell r c = s.disp.cell r c) ∧
    ((∀ r < 32, ∀ c < 64, spritePixel s x y n r c = true → s.disp.cell r c = false) →
      (∃ r < 32, ∃ c < 64, spritePixel s x y n r c = true) → t.reg 0xF = 0 ∧ w.reg 0xF = 1)

/-! ### Control flow (42_control_flow.md) -/

/-- R140, R144, R150 (D5: no mask to 12 bits; D4: any target): 1nnn goes to nnn, Bnnn to nnn + V0. -/
def Obligations.JumpsGoToTheirTargets : Prop :=
  ∀ (s : State) (nnn : Imm12),
    (∃ t, Completes (.jp nnn) s t ∧ t.pc.toNat = nnn.toNat) ∧
    (∃ t, Completes (.jpV0 nnn) s t ∧ t.pc.toNat = nnn.toNat + (s.reg 0).toNat)

/-- R145: 2nnn pushes its address + 2 and goes to nnn; on a full stack StackOverflow, nothing pushed. That pc is then at
the call's own address is R203, the spec's decision D7 (log 14). -/
def Obligations.CallPushesOrOverflows : Prop :=
  ∀ (s : State) (nnn : Imm12),
    (encode (.call nnn)).toNat = 0x2000 + nnn.toNat ∧
    (∀ h : s.sp.val < 32, ∃ t, Completes (.call nnn) s t ∧ t.pc.toNat = nnn.toNat ∧ t.sp.val = s.sp.val + 1 ∧
      t.stk[s.sp.val] = s.pc + 2 ∧ ∀ j : Fin 32, j.val ≠ s.sp.val → t.stk[j] = s.stk[j]) ∧
    (s.sp.val = 32 → ∃ t r, exec (.call nnn) s = .next t ∧ t.fault = some r ∧ r.code = .stackOverflow ∧
      t.sp = s.sp ∧ t.stk = s.stk ∧ t.pc = s.pc)

/-- R143: 00EE pops pc; on an empty stack StackUnderflow. That SP and pc are then unchanged is R203, the spec's decision
D7 (log 14). -/
def Obligations.ReturnPopsOrUnderflows : Prop :=
  (encode .ret).toNat = 0x00EE ∧
  ∀ s : State,
    (∀ h : 0 < s.sp.val, ∃ t, Completes .ret s t ∧ t.sp.val = s.sp.val - 1 ∧
      t.pc = s.stk[s.sp.val - 1]'(by have := s.sp.isLt; omega)) ∧
    (s.sp.val = 0 → ∃ t r, exec .ret s = .next t ∧ t.fault = some r ∧ r.code = .stackUnderflow ∧
      t.sp = s.sp ∧ t.pc = s.pc)

/-- R151 (derived there): after a call, a subroutine that leaves the depth and the entries in use as the call left them,
and the matching 00EE, pc is just after the call and the depth is as before it. -/
def Obligations.CallThenReturnComesBack : Prop :=
  ∀ (s t u w : State) (nnn : Imm12), s.sp.val < 32 → exec (.call nnn) s = .next t →
    u.sp = t.sp → (∀ j : Fin 32, j.val < t.sp.val → u.stk[j] = t.stk[j]) → exec .ret u = .next w →
    w.pc = s.pc + 2 ∧ w.sp = s.sp

/-- R146, R147: 3xnn skips iff Vx = nn and 4xnn iff Vx ≠ nn, by 2 more than the advanced pc; with their words. -/
def Obligations.ByteSkips : Prop :=
  ∀ (s : State) (x : Nibble) (nn : Byte),
    ((encode (.seByte x nn)).toNat = 0x3000 + x.toNat * 256 + nn.toNat ∧
      ∃ t, Completes (.seByte x nn) s t ∧ t.pc = if s.reg x = nn then s.pc + 4 else s.pc + 2) ∧
    ((encode (.sneByte x nn)).toNat = 0x4000 + x.toNat * 256 + nn.toNat ∧
      ∃ t, Completes (.sneByte x nn) s t ∧ t.pc = if s.reg x = nn then s.pc + 2 else s.pc + 4)

/-- R141, R148, R149: 5xy0 skips iff Vx = Vy and 9xy0 iff Vx ≠ Vy; x = y always and never. -/
def Obligations.RegisterSkips : Prop :=
  ∀ (s : State) (x y : Nibble),
    (∃ t, Completes (.seReg x y) s t ∧ t.pc = if s.reg x = s.reg y then s.pc + 4 else s.pc + 2) ∧
    (∃ t, Completes (.sneReg x y) s t ∧ t.pc = if s.reg x = s.reg y then s.pc + 2 else s.pc + 4)

/-! ### Timers and input (43_timer_input.md) -/

/-- R160, R161: with Vx a key, Ex9E skips iff that key is held and ExA1 iff it is not. R166 (D13): above 0xF both raise
KeyIndexOutOfRange with the value and change nothing else, pc included (D7, log 14). -/
def Obligations.KeySkips : Prop :=
  ∀ (s : State) (x : Nibble),
    (∀ k : Nibble, (s.reg x).toNat = k.toNat →
      (∃ t, Completes (.skp x) s t ∧ t.pc = if s.keyHeld k = true then s.pc + 4 else s.pc + 2) ∧
      (∃ t, Completes (.sknp x) s t ∧ t.pc = if s.keyHeld k = true then s.pc + 2 else s.pc + 4)) ∧
    (15 < (s.reg x).toNat →
      exec (.skp x) s = .next { s with
        fault := some ⟨.keyIndexOutOfRange, s.pc, some (encode (.skp x)), some (s.reg x).toNat⟩ } ∧
      exec (.sknp x) s = .next { s with
        fault := some ⟨.keyIndexOutOfRange, s.pc, some (encode (.sknp x)), some (s.reg x).toNat⟩ })

/-- R162, R164, R165, R167: Fx07 reads DT; Fx15 and Fx18 set DT and ST to the value of Vx; with their words. -/
def Obligations.TimerTransfers : Prop :=
  ∀ (s : State) (x : Nibble),
    ((encode (.ldVxDT x)).toNat = 0xF007 + x.toNat * 256 ∧
      ∃ t, Completes (.ldVxDT x) s t ∧ t.reg x = s.dt ∧ t.pc = s.pc + 2) ∧
    ((encode (.ldDTVx x)).toNat = 0xF015 + x.toNat * 256 ∧
      ∃ t, Completes (.ldDTVx x) s t ∧ t.dt = s.reg x ∧ t.pc = s.pc + 2) ∧
    ((encode (.ldSTVx x)).toNat = 0xF018 + x.toNat * 256 ∧
      ∃ t, Completes (.ldSTVx x) s t ∧ t.st = s.reg x ∧ t.pc = s.pc + 2)

/-- R163: Fx0A puts the lowest held key into Vx and clears paused; with no key held it sets paused, leaves Vx, and pc is
back at its own address. -/
def Obligations.KeyWaitTakesLowestKey : Prop :=
  ∀ (s : State) (x : Nibble),
    (encode (.ldVxK x)).toNat = 0xF00A + x.toNat * 256 ∧
    (∀ k : Nibble, s.keyHeld k = true → (∀ j : Nibble, j.toNat < k.toNat → s.keyHeld j = false) →
      ∃ t, Completes (.ldVxK x) s t ∧ (t.reg x).toNat = k.toNat ∧ t.paused = false ∧ t.pc = s.pc + 2) ∧
    ((∀ k : Nibble, s.keyHeld k = false) →
      ∃ t, Completes (.ldVxK x) s t ∧ t.reg x = s.reg x ∧ t.paused = true ∧ t.pc = s.pc)

/-- R168, R225 (derived there): at an Fx0A with no key held, any number of cycles leave pc, and DT and ST; the cycle
after a key-down event puts that key into Vx, clears paused and goes on to the next instruction. No other host event
falls between the cycles (D18, log 7); the frozen timers rest on D17 (log 23). -/
def Obligations.KeyWaitHoldsUntilKeyDown : Prop :=
  ∀ (s : State) (x : Nibble), s.fault = none → Fetches s (.ldVxK x) → (∀ k : Nibble, s.keyHeld k = false) →
    ∀ n, ∃ t, Steps n s t ∧ t.pc = s.pc ∧ t.dt = s.dt ∧ t.st = s.st ∧
      ∀ k : Nibble, ∃ u, step (t.keyDown k) = .next u ∧ u.pc = s.pc + 2 ∧ (u.reg x).toNat = k.toNat ∧
        u.paused = false

/-! ### Index register and memory (44_index_memory.md) -/

/-- R180, R181 (D5), R182 (D14): Annn, Fx1E and Fx29 on I; VF is unchanged, and Fx29's value is not masked. -/
def Obligations.IndexRegisterWrites : Prop :=
  ∀ (s : State) (x : Nibble) (nnn : Imm12),
    (∃ t, Completes (.ldI nnn) s t ∧ t.i.toNat = nnn.toNat ∧ t.pc = s.pc + 2) ∧
    (∃ t, Completes (.addI x) s t ∧ t.i.toNat = (s.i.toNat + (s.reg x).toNat) % 65536 ∧ t.pc = s.pc + 2) ∧
    (∃ t, Completes (.ldF x) s t ∧ t.i.toNat = 0x050 + 5 * (s.reg x).toNat ∧ t.pc = s.pc + 2)

/-- R185 (I unchanged: D15): where the three bytes may be written, Fx33 stores the hundreds, tens and units of Vx. -/
def Obligations.DecimalDigitsAreStored : Prop :=
  ∀ (s : State) (x : Nibble), (∀ k < 3, Writable s k) →
    ∃ t, Completes (.ldB x) s t ∧ t.pc = s.pc + 2 ∧
      (t.mem.read (effAddr s 0)).toNat = (s.reg x).toNat / 100 ∧
      (t.mem.read (effAddr s 1)).toNat = (s.reg x).toNat / 10 % 10 ∧
      (t.mem.read (effAddr s 2)).toNat = (s.reg x).toNat % 10

/-- R186 (I unchanged: D15): where the x + 1 bytes may be written, Fx55 stores V0 to Vx. -/
def Obligations.RegistersAreStored : Prop :=
  ∀ (s : State) (x : Nibble), (∀ k ≤ x.toNat, Writable s k) →
    ∃ t, Completes (.storeRegs x) s t ∧ t.pc = s.pc + 2 ∧
      ∀ j : Nibble, j.toNat ≤ x.toNat → t.mem.read (effAddr s j.toNat) = s.reg j

/-- R187 (I unchanged: D15): where the x + 1 bytes lie in memory, Fx65 loads V0 to Vx. -/
def Obligations.RegistersAreLoaded : Prop :=
  ∀ (s : State) (x : Nibble), (∀ k ≤ x.toNat, Readable s k) →
    ∃ t, Completes (.loadRegs x) s t ∧ t.pc = s.pc + 2 ∧
      ∀ j : Nibble, j.toNat ≤ x.toNat → t.reg j = s.mem.read (effAddr s j.toNat)

/-- R54, R56, R184, R205 (D2, D3, D8): Fx33 and Fx55 stop at the first byte in ascending order that may not be written,
AddressOutOfRange at 4096 and above, else GlyphWrite, and change nothing else. -/
def Obligations.StoresTrapAtFirstBadByte : Prop :=
  ∀ (i : Instr) (s : State) (k : Nat), shapeOf i = .storing → k < storeWidth i → (∀ j < k, Writable s j) →
    ¬ Writable s k →
    exec i s = .next { s with
      fault := some ⟨if 4096 ≤ effAddr s k then .addressOutOfRange else .glyphWrite, s.pc, some (encode i),
        some (effAddr s k)⟩ }

/-- R55, R135, R184 (D2, D12): Dxyn and Fx65 raise AddressOutOfRange at their first byte at 4096 or more, a sprite row
that would be clipped included, and change nothing else. -/
def Obligations.ReadsTrapAtFirstBadByte : Prop :=
  ∀ (s : State) (k : Nat), (∀ j < k, Readable s j) → ¬ Readable s k →
    (∀ x y n : Nibble, k < n.toNat →
      exec (.drw x y n) s = .next { s with
        fault := some ⟨.addressOutOfRange, s.pc, some (encode (.drw x y n)), some (effAddr s k)⟩ }) ∧
    (∀ x : Nibble, k ≤ x.toNat →
      exec (.loadRegs x) s = .next { s with
        fault := some ⟨.addressOutOfRange, s.pc, some (encode (.loadRegs x)), some (effAddr s k)⟩ })

/-- R186, R187 together: what Fx55 stored, Fx65 at the same I loads back. -/
def Obligations.StoreThenLoadRestores : Prop :=
  ∀ (s t u w : State) (x : Nibble), (∀ k ≤ x.toNat, Writable s k) → exec (.storeRegs x) s = .next t →
    u.i = s.i → u.mem = t.mem → exec (.loadRegs x) u = .next w →
    ∀ j : Nibble, j.toNat ≤ x.toNat → w.reg j = s.reg j

/-- R68, R253 (D26): bytes Fx55 stores over the next instruction are what the very next fetch reads. -/
def Obligations.StoredCodeIsFetched : Prop :=
  ∀ (s t : State) (x : Nibble), 1 ≤ x.toNat → (∀ k ≤ x.toNat, Writable s k) → s.i = s.pc + 2 →
    exec (.storeRegs x) s = .next t → t.fetch = .ok (wordOfBytes (s.reg 0) (s.reg 1))

/-! ### The host port (60_exceptions.md) -/

/-- R215 (D25, log 25): a cancelled run leaves a state from which a later run goes on as if the run had not stopped, where
no host event falls between the cycles (D18, log 7; log 33). -/
def Obligations.CancelledRunResumes : Prop :=
  ∀ (n m : Nat) (s t : State), run n s = .next (t, .cancelled) → run (n + m) s = run m t

/-- R221 (D21): the snapshot is 2048 bytes, byte r * 64 + c the cell (r, c) as 0 or 1. -/
def Obligations.SnapshotIsRowMajor : Prop :=
  ∀ s : State, s.displayBuffer.length = 2048 ∧
    ∀ r < 32, ∀ c < 64, s.displayBuffer[r * 64 + c]? = some (if s.disp.cell r c = true then 1 else 0)

/-- R220, R32: a key event, at any time after the first reset, running or faulted, sets that key's latch and nothing
else. -/
def Obligations.KeyEventsWriteOneLatch : Prop :=
  ∀ (S : Session) (s : State) (k : Nibble) (down : Bool), S.core = some s →
    ∃ t, S.move (.keyEvent k down) = .next (⟨some t, S.running, S.cancelRequested⟩, .nothing) ∧
      t = { s with key := t.key } ∧ t.keyHeld k = down ∧ ∀ j, j ≠ k → t.keyHeld j = s.keyHeld j
end

