-- ==== Sys2Proof/Laws/Decode.lean ====
section
/-! SUPPORT. Packed words and their fields as numbers (30_encoding.md R81, R83): what each format's word is worth, and
that its fields come back as they went in. -/

namespace Sys2Proof

theorem append_toNat (n m : Nat) (a : BitVec n) (b : BitVec m) : (a ++ b).toNat = a.toNat * 2 ^ m + b.toNat := by
  rw [BitVec.toNat_append, ← Nat.shiftLeft_add_eq_or_of_lt b.isLt, Nat.shiftLeft_eq]

theorem packNNN_toNat (op : Nibble) (nnn : Imm12) : (packNNN op nnn).toNat = op.toNat * 4096 + nnn.toNat :=
  append_toNat 4 12 op nnn

theorem packXNN_toNat (op x : Nibble) (nn : Byte) :
    (packXNN op x nn).toNat = op.toNat * 4096 + x.toNat * 256 + nn.toNat := by
  have h1 := append_toNat 8 8 (op ++ x) nn
  have h2 := append_toNat 4 4 op x
  have h3 : (packXNN op x nn).toNat = ((op ++ x : BitVec 8) ++ nn).toNat := rfl
  rw [h3, h1, h2]
  omega

theorem packXYN_toNat (op x y n : Nibble) :
    (packXYN op x y n).toNat = op.toNat * 4096 + x.toNat * 256 + y.toNat * 16 + n.toNat := by
  have h1 := append_toNat 12 4 (op ++ x ++ y) n
  have h2 := append_toNat 8 4 (op ++ x) y
  have h3 := append_toNat 4 4 op x
  have h4 : (packXYN op x y n).toNat = ((op ++ x ++ y : BitVec 12) ++ n).toNat := rfl
  rw [h4, h1, h2, h3]
  omega

theorem wordOfBytes_toNat (hi lo : Byte) : (wordOfBytes hi lo).toNat = hi.toNat * 256 + lo.toNat :=
  append_toNat 8 8 hi lo

theorem opField_toNat (w : Word) : (opField w).toNat = w.toNat / 4096 := by
  have := w.isLt
  simp [opField, Nat.shiftRight_eq_div_pow]
  omega

theorem xField_toNat (w : Word) : (xField w).toNat = w.toNat / 256 % 16 := by
  simp [xField, Nat.shiftRight_eq_div_pow]

theorem yField_toNat (w : Word) : (yField w).toNat = w.toNat / 16 % 16 := by
  simp [yField, Nat.shiftRight_eq_div_pow]

theorem nField_toNat (w : Word) : (nField w).toNat = w.toNat % 16 := by
  simp [nField]

theorem nnField_toNat (w : Word) : (nnField w).toNat = w.toNat % 256 := by
  simp [nnField]

theorem nnnField_toNat (w : Word) : (nnnField w).toNat = w.toNat % 4096 := by
  simp [nnnField]

theorem highByte_toNat (w : Word) : (highByte w).toNat = w.toNat / 256 := by
  have := w.isLt
  simp [highByte, Nat.shiftRight_eq_div_pow]
  omega

theorem lowByte_toNat (w : Word) : (lowByte w).toNat = w.toNat % 256 := by
  simp [lowByte]

@[simp] theorem opField_packNNN (op : Nibble) (nnn : Imm12) : opField (packNNN op nnn) = op := by
  apply BitVec.eq_of_toNat_eq
  have := op.isLt; have := nnn.isLt
  rw [opField_toNat, packNNN_toNat]; omega

@[simp] theorem nnnField_packNNN (op : Nibble) (nnn : Imm12) : nnnField (packNNN op nnn) = nnn := by
  apply BitVec.eq_of_toNat_eq
  have := op.isLt; have := nnn.isLt
  rw [nnnField_toNat, packNNN_toNat]; omega

@[simp] theorem opField_packXNN (op x : Nibble) (nn : Byte) : opField (packXNN op x nn) = op := by
  apply BitVec.eq_of_toNat_eq
  have := op.isLt; have := x.isLt; have := nn.isLt
  rw [opField_toNat, packXNN_toNat]; omega

@[simp] theorem xField_packXNN (op x : Nibble) (nn : Byte) : xField (packXNN op x nn) = x := by
  apply BitVec.eq_of_toNat_eq
  have := op.isLt; have := x.isLt; have := nn.isLt
  rw [xField_toNat, packXNN_toNat]; omega

@[simp] theorem nnField_packXNN (op x : Nibble) (nn : Byte) : nnField (packXNN op x nn) = nn := by
  apply BitVec.eq_of_toNat_eq
  have := op.isLt; have := x.isLt; have := nn.isLt
  rw [nnField_toNat, packXNN_toNat]; omega

@[simp] theorem opField_packXYN (op x y n : Nibble) : opField (packXYN op x y n) = op := by
  apply BitVec.eq_of_toNat_eq
  have := op.isLt; have := x.isLt; have := y.isLt; have := n.isLt
  rw [opField_toNat, packXYN_toNat]; omega

@[simp] theorem xField_packXYN (op x y n : Nibble) : xField (packXYN op x y n) = x := by
  apply BitVec.eq_of_toNat_eq
  have := op.isLt; have := x.isLt; have := y.isLt; have := n.isLt
  rw [xField_toNat, packXYN_toNat]; omega

@[simp] theorem yField_packXYN (op x y n : Nibble) : yField (packXYN op x y n) = y := by
  apply BitVec.eq_of_toNat_eq
  have := op.isLt; have := x.isLt; have := y.isLt; have := n.isLt
  rw [yField_toNat, packXYN_toNat]; omega

@[simp] theorem nField_packXYN (op x y n : Nibble) : nField (packXYN op x y n) = n := by
  apply BitVec.eq_of_toNat_eq
  have := op.isLt; have := x.isLt; have := y.isLt; have := n.isLt
  rw [nField_toNat, packXYN_toNat]; omega

/-- A word is its leading nibble and nnn (format NNN). -/
theorem packNNN_fields (w : Word) : packNNN (opField w) (nnnField w) = w := by
  apply BitVec.eq_of_toNat_eq
  rw [packNNN_toNat, opField_toNat, nnnField_toNat]; omega

/-- A word is its leading nibble, x and nn (formats XNN, XS). -/
theorem packXNN_fields (w : Word) : packXNN (opField w) (xField w) (nnField w) = w := by
  apply BitVec.eq_of_toNat_eq
  rw [packXNN_toNat, opField_toNat, xField_toNat, nnField_toNat]; omega

/-- A word is its four nibbles (formats XYS, XYN). -/
theorem packXYN_fields (w : Word) : packXYN (opField w) (xField w) (yField w) (nField w) = w := by
  apply BitVec.eq_of_toNat_eq
  rw [packXYN_toNat, opField_toNat, xField_toNat, yField_toNat, nField_toNat]; omega

/-- Masking works nibble by nibble. -/
theorem packXYN_and (a b c d a' b' c' d' : Nibble) :
    packXYN a b c d &&& packXYN a' b' c' d' = packXYN (a &&& a') (b &&& b') (c &&& c') (d &&& d') := by
  have h1 := BitVec.and_append (x₁ := a ++ b ++ c) (x₂ := a' ++ b' ++ c') (y₁ := d) (y₂ := d')
  have h2 := BitVec.and_append (x₁ := a ++ b) (x₂ := a' ++ b') (y₁ := c) (y₂ := c')
  have h3 := BitVec.and_append (x₁ := a) (x₂ := a') (y₁ := b) (y₂ := b')
  rw [h2, h3] at h1
  exact h1

/-- The word of format XNN by its four nibbles. -/
theorem packXNN_eq_packXYN (op x y n : Nibble) (nn : Byte) (h : nn.toNat = y.toNat * 16 + n.toNat) :
    packXNN op x nn = packXYN op x y n := by
  apply BitVec.eq_of_toNat_eq
  rw [packXNN_toNat, packXYN_toNat]; omega

/-- The word of format NNN by its four nibbles. -/
theorem packNNN_eq_packXYN (op x y n : Nibble) (nnn : Imm12)
    (h : nnn.toNat = x.toNat * 256 + y.toNat * 16 + n.toNat) : packNNN op nnn = packXYN op x y n := by
  apply BitVec.eq_of_toNat_eq
  rw [packNNN_toNat, packXYN_toNat]; omega

/-- The bytes of a word, put together again, are the word (R58). -/
@[simp] theorem wordOfBytes_bytes (w : Word) : wordOfBytes (highByte w) (lowByte w) = w := by
  apply BitVec.eq_of_toNat_eq
  rw [wordOfBytes_toNat, highByte_toNat, lowByte_toNat]; omega

end Sys2Proof
end

