-- ==== Sys2Proof/Laws/Display.lean ====
section
/-! SUPPORT. The display: what flipping a cell, drawing a sprite byte and drawing the rows of a sprite do. -/

namespace Sys2Proof.Machine

/-- Flipping a cell of the grid: that cell is XORed with 1, every other stays. -/
theorem Display.cell_flip (d : Display) (r c r' c' : Nat) (hr : r < 32) (hc : c < 64) :
    (d.flip r c).cell r' c' = (d.cell r' c' ^^ decide (r' = r ∧ c' = c)) := by
  unfold Display.flip
  rw [dif_pos ⟨hr, hc⟩]
  unfold Display.cell
  by_cases h : r' < 32 ∧ c' < 64
  · rw [dif_pos h, dif_pos h]
    simp only [Vector.getElem_set]
    by_cases h1 : r = r'
    · subst h1
      simp only [if_true, Vector.getElem_set]
      by_cases h2 : c = c'
      · subst h2; simp
      · simp [h2, Ne.symm h2]
    · simp [h1, Ne.symm h1]
  · rw [dif_neg h, dif_neg h]
    simp; omega

/-- Column c is under a drawn bit that is 1, of a sprite byte at column cx with its n last bits still to draw
(R133, R134). -/
def rowBit (cx : Nat) (byte : Byte) (n c : Nat) : Bool :=
  decide (cx + 8 ≤ c + n ∧ c < cx + 8 ∧ c < 64) && byte.getLsbD (7 - (c - cx))

/-- What drawing one sprite byte does: every cell is XORed with the byte's bit on it, and the collision is set exactly
when it was, or a drawn bit lands on a cell that was on. -/
theorem Canvas.drawBits_spec (r cx : Nat) (byte : Byte) (hr : r < 32) (n : Nat) (hn : n ≤ 8) (k : Canvas) :
    (∀ r' c', (Canvas.drawBits r cx byte n k).disp.cell r' c' = (k.disp.cell r' c' ^^ (decide (r' = r) && rowBit cx byte n c'))) ∧
    ((Canvas.drawBits r cx byte n k).hit = true ↔ k.hit = true ∨ ∃ c, rowBit cx byte n c = true ∧ k.disp.cell r c = true) := by
  induction n generalizing k with
  | zero =>
    constructor
    · intro r' c'
      have : rowBit cx byte 0 c' = false := by simp [rowBit]; omega
      simp [Canvas.drawBits, this]
    · simp only [Canvas.drawBits]
      constructor
      · exact Or.inl
      · rintro (h | ⟨c, h, -⟩)
        · exact h
        · simp [rowBit] at h; omega
  | succ n ih =>
    unfold Canvas.drawBits
    by_cases hc : cx + (7 - n) ≥ 64
    · rw [if_pos (by simpa using hc)]
      have hz : ∀ c, rowBit cx byte (n+1) c = false := by
        intro c; simp [rowBit]; omega
      simp [hz]
    · rw [if_neg (by simpa using hc)]
      have hstep : ∀ c, rowBit cx byte (n+1) c = (rowBit cx byte n c || (decide (c = cx + (7 - n)) && byte.getLsbD n)) := by
        intro c
        by_cases h : c = cx + (7 - n)
        · subst h
          have e : 7 - (cx + (7 - n) - cx) = n := by omega
          simp only [rowBit, e]
          have : decide (cx + 8 ≤ cx + (7-n) + (n+1) ∧ cx + (7-n) < cx + 8 ∧ cx + (7-n) < 64) = true := by simp; omega
          rw [this]
          have : decide (cx + 8 ≤ cx + (7-n) + n ∧ cx + (7-n) < cx + 8 ∧ cx + (7-n) < 64) = false := by simp; omega
          rw [this]; simp
        · have : decide (cx + 8 ≤ c + (n+1) ∧ c < cx + 8 ∧ c < 64) = decide (cx + 8 ≤ c + n ∧ c < cx + 8 ∧ c < 64) := by
            apply decide_eq_decide.mpr; omega
          simp [rowBit, this, h]
      have hdisj : rowBit cx byte n (cx + (7-n)) = false := by simp [rowBit]; omega
      obtain ⟨ih1, ih2⟩ := ih (by omega) (if byte.getLsbD n then k.plot r (cx + (7 - n)) else k)
      cases hb : byte.getLsbD n with
      | false =>
        simp [hb] at ih1 ih2 ⊢
        simp only [hstep, hb] 
        simp
        exact ⟨ih1, ih2⟩
      | true =>
        simp only [hb, if_true] at ih1 ih2 ⊢
        constructor
        · intro r' c'
          rw [ih1, hstep, hb]
          simp only [Canvas.plot]
          rw [Display.cell_flip _ _ _ _ _ hr (by omega)]
          by_cases h1 : c' = cx + (7-n)
          · subst h1; rw [hdisj]; simp
          · simp [h1]
        · rw [ih2]
          simp only [Canvas.plot, Bool.or_eq_true]
          constructor
          · rintro ((h | h) | ⟨c, h1, h2⟩)
            · exact .inl h
            · exact .inr ⟨_, by rw [hstep, hb]; simp, h⟩
            · refine .inr ⟨c, by rw [hstep, h1]; rfl, ?_⟩
              rw [Display.cell_flip _ _ _ _ _ hr (by omega)] at h2
              have : c ≠ cx + (7-n) := by rintro rfl; rw [hdisj] at h1; cases h1
              simpa [this] using h2
          · rintro (h | ⟨c, h1, h2⟩)
            · exact .inl (.inl h)
            · rw [hstep, hb] at h1
              by_cases h3 : c = cx + (7-n)
              · subst h3; exact .inl (.inr h2)
              · refine .inr ⟨c, by simpa [h3] using h1, ?_⟩
                rw [Display.cell_flip _ _ _ _ _ hr (by omega)]
                simpa [h3] using h2

/-- Cell (r, c) is under a drawn bit that is 1, of sprite bytes drawn from row r0 down at column cx (R133). -/
def spriteBit (cx r0 : Nat) (bs : List Byte) (r c : Nat) : Bool :=
  decide (r0 ≤ r ∧ r < r0 + bs.length) && rowBit cx ((bs[r - r0]?).getD 0) 8 c

/-- What drawing the rows of a sprite does, where they end on the grid. -/
theorem Canvas.drawRows_spec (cx : Nat) (bs : List Byte) (r0 : Nat) (h : r0 + bs.length ≤ 32) (k : Canvas) :
    (∀ r c, (Canvas.drawRows cx bs r0 k).disp.cell r c = (k.disp.cell r c ^^ spriteBit cx r0 bs r c)) ∧
    ((Canvas.drawRows cx bs r0 k).hit = true ↔ k.hit = true ∨ ∃ r c, spriteBit cx r0 bs r c = true ∧ k.disp.cell r c = true) := by
  induction bs generalizing r0 k with
  | nil =>
    have : ∀ r c, spriteBit cx r0 [] r c = false := by intro r c; simp [spriteBit]
    simp [Canvas.drawRows, this]
  | cons b bs ih =>
    simp only [List.length_cons] at h
    unfold Canvas.drawRows
    obtain ⟨b1, b2⟩ := Canvas.drawBits_spec r0 cx b (by omega) 8 le_rfl k
    obtain ⟨i1, i2⟩ := ih (r0+1) (by omega) (Canvas.drawBits r0 cx b 8 k)
    have hs : ∀ r c, spriteBit cx r0 (b::bs) r c = (spriteBit cx (r0+1) bs r c || (decide (r = r0) && rowBit cx b 8 c)) := by
      intro r c
      by_cases h1 : r = r0
      · subst h1
        have : decide (r + 1 ≤ r ∧ r < r + 1 + bs.length) = false := by simp
        simp [spriteBit]
      · by_cases h2 : r0 + 1 ≤ r ∧ r < r0 + 1 + bs.length
        · have e : r - r0 = (r - (r0+1)) + 1 := by omega
          simp only [spriteBit, List.length_cons, e, List.getElem?_cons_succ]
          rw [show decide (r0 ≤ r ∧ r < r0 + (bs.length+1)) = true by simp; omega, show decide (r0+1 ≤ r ∧ r < r0 + 1 + bs.length) = true by simp; omega]
          simp [h1]
        · simp only [spriteBit, List.length_cons]
          rw [show decide (r0 ≤ r ∧ r < r0 + (bs.length+1)) = false by simp; omega, show decide (r0+1 ≤ r ∧ r < r0 + 1 + bs.length) = false by simp; omega]
          simp [h1]
    have hd : ∀ c, spriteBit cx (r0+1) bs r0 c = false := by intro c; simp [spriteBit]
    constructor
    · intro r c
      rw [i1, b1, hs]
      by_cases h1 : r = r0
      · subst h1; rw [hd]; simp
      · simp [h1]
    · rw [i2, b2]
      constructor
      · rintro ((h1 | ⟨c, h1, h2⟩) | ⟨r, c, h1, h2⟩)
        · exact .inl h1
        · exact .inr ⟨r0, c, by rw [hs, h1]; simp, h2⟩
        · refine .inr ⟨r, c, by rw [hs, h1]; rfl, ?_⟩
          rw [b1] at h2
          have : r ≠ r0 := by rintro rfl; rw [hd] at h1; cases h1
          simpa [this] using h2
      · rintro (h1 | ⟨r, c, h1, h2⟩)
        · exact .inl (.inl h1)
        · rw [hs] at h1
          by_cases h3 : r = r0
          · subst h3; rw [hd] at h1; exact .inl (.inr ⟨c, by simpa using h1, h2⟩)
          · refine .inr ⟨r, c, by simpa [h3] using h1, ?_⟩
            rw [b1]; simpa [h3] using h2

end Sys2Proof.Machine
end

