-- ==== Sys2Proof/Laws/Memory.lean ====
section
/-! SUPPORT. Memory: a read after a write, the canonical form under every memory operation, what the multi-byte
accesses do, and what an access check says. -/

namespace Sys2Proof.Machine

theorem Memory.read_forget_ne (m : Memory) (a b : Nat) (h : b ≠ a) : (m.forget a).read b = m.read b := by
  induction m with
  | nil => rfl
  | cons c rest ih =>
    by_cases hc : c.1 = a
    · have e : Memory.forget (c :: rest) a = Memory.forget rest a := by simp [Memory.forget, hc]
      rw [e, ih, Memory.read, if_neg (by omega)]
    · have e : Memory.forget (c :: rest) a = c :: Memory.forget rest a := by simp [Memory.forget, hc]
      rw [e, Memory.read, Memory.read, ih]

theorem Memory.read_forget_self (m : Memory) (a : Nat) : (m.forget a).read a = Memory.background a := by
  induction m with
  | nil => rfl
  | cons c rest ih =>
    by_cases hc : c.1 = a
    · have e : Memory.forget (c :: rest) a = Memory.forget rest a := by simp [Memory.forget, hc]
      rw [e, ih]
    · have e : Memory.forget (c :: rest) a = c :: Memory.forget rest a := by simp [Memory.forget, hc]
      rw [e, Memory.read, if_neg hc, ih]

theorem Memory.read_insert_ne (m : Memory) (c : Host.Cell) (b : Nat) (h : b ≠ c.1) :
    (m.insert c).read b = m.read b := by
  have h' : ¬ c.1 = b := fun e => h e.symm
  induction m with
  | nil => simp [Memory.insert, Memory.read, h']
  | cons d rest ih =>
    unfold Memory.insert
    split
    · rw [Memory.read, if_neg h']
    · rw [Memory.read, Memory.read, ih]

theorem Memory.read_insert_self (m : Memory) (c : Host.Cell) (h : ∀ d ∈ m, d.1 ≠ c.1) :
    (m.insert c).read c.1 = c.2 := by
  induction m with
  | nil => simp [Memory.insert, Memory.read]
  | cons d rest ih =>
    unfold Memory.insert
    split
    · simp [Memory.read]
    · rw [Memory.read, if_neg (h d (by simp)), ih (fun e he => h e (by simp [he]))]

theorem Memory.forget_no_entry (m : Memory) (a : Nat) : ∀ d ∈ m.forget a, d.1 ≠ a := by
  intro d hd
  simpa [Memory.forget] using (List.mem_filter.mp hd).2

/-- The law of memory: a read after a write gives the byte written there, and the old byte everywhere else. It holds
of every list, canonical or not. -/
theorem Memory.read_write (m : Memory) (a b : Nat) (v : Byte) :
    (m.write a v).read b = if b = a then v else m.read b := by
  unfold Memory.write
  by_cases hv : v = Memory.background a
  · rw [if_pos hv]
    by_cases hb : b = a
    · rw [if_pos hb, hb, Memory.read_forget_self, hv]
    · rw [if_neg hb, Memory.read_forget_ne _ _ _ hb]
  · rw [if_neg hv]
    by_cases hb : b = a
    · rw [if_pos hb, hb]
      exact Memory.read_insert_self (m.forget a) (a, v) (Memory.forget_no_entry m a)
    · rw [if_neg hb, Memory.read_insert_ne _ _ _ hb, Memory.read_forget_ne _ _ _ hb]

theorem Memory.mem_insert (m : Memory) (c d : Host.Cell) : d ∈ m.insert c ↔ d = c ∨ d ∈ m := by
  induction m with
  | nil => simp [Memory.insert]
  | cons e rest ih =>
    unfold Memory.insert
    split
    · simp
    · simp [ih]; tauto

theorem Memory.wf_iff (m : Memory) :
    m.wf = true ↔ m.Pairwise (fun c d => c.1 < d.1) ∧ ∀ c ∈ m, c.2 ≠ Memory.background c.1 := by
  simp [Memory.wf]

theorem Memory.insert_rising (m : Memory) (c : Host.Cell) (hm : m.Pairwise (fun c d => c.1 < d.1))
    (hc : ∀ d ∈ m, d.1 ≠ c.1) : (m.insert c).Pairwise (fun c d => c.1 < d.1) := by
  induction m with
  | nil => simp [Memory.insert]
  | cons e rest ih =>
    obtain ⟨he, hr⟩ := List.pairwise_cons.mp hm
    unfold Memory.insert
    split
    · next hlt =>
      refine List.pairwise_cons.mpr ⟨fun d hd => ?_, hm⟩
      rcases List.mem_cons.mp hd with rfl | hd
      · exact hlt
      · have := he d hd; omega
    · next hlt =>
      refine List.pairwise_cons.mpr ⟨fun d hd => ?_, ih hr (fun d hd => hc d (by simp [hd]))⟩
      rcases (Memory.mem_insert rest c d).mp hd with rfl | hd
      · have := hc e (by simp); omega
      · exact he d hd

/-- A write keeps the canonical form. -/
theorem Memory.write_wf (m : Memory) (a : Nat) (v : Byte) (hm : m.wf = true) : (m.write a v).wf = true := by
  rw [Memory.wf_iff] at hm ⊢
  have hf : (m.forget a).Pairwise (fun c d => c.1 < d.1) := hm.1.filter _
  have hb : ∀ c ∈ m.forget a, c.2 ≠ Memory.background c.1 := fun c hc => hm.2 c (List.mem_filter.mp hc).1
  unfold Memory.write
  split
  · exact ⟨hf, hb⟩
  · next hv =>
    refine ⟨Memory.insert_rising _ _ hf (Memory.forget_no_entry m a), fun c hc => ?_⟩
    rcases (Memory.mem_insert _ _ _).mp hc with rfl | hc
    · exact hv
    · exact hb c hc

/-- The addresses a write can list: the one written, and those listed before. -/
theorem Memory.mem_write (m : Memory) (a : Nat) (v : Byte) (c : Host.Cell) (h : c ∈ m.write a v) :
    c.1 = a ∨ c ∈ m := by
  unfold Memory.write at h
  split at h
  · exact .inr (List.mem_filter.mp h).1
  · rcases (Memory.mem_insert _ _ _).mp h with rfl | h
    · exact .inl rfl
    · exact .inr (List.mem_filter.mp h).1

/-- What storing bytes from an address up does: byte `j` goes to `base + j`, every other address stays. -/
theorem Memory.read_writeBytes (m : Memory) (base : Nat) (bs : List Byte) (a : Nat) :
    (m.writeBytes base bs).read a
      = if base ≤ a ∧ a < base + bs.length then (bs[a - base]?).getD 0 else m.read a := by
  induction bs generalizing m base with
  | nil => simp [Memory.writeBytes]
  | cons b bs ih =>
    rw [Memory.writeBytes, ih, Memory.read_write]
    simp only [List.length_cons]
    by_cases h1 : base + 1 ≤ a ∧ a < base + 1 + bs.length
    · have e : a - base = (a - (base + 1)) + 1 := by omega
      rw [if_pos h1, if_pos (by omega), e, List.getElem?_cons_succ]
    · rw [if_neg h1]
      by_cases h2 : a = base
      · subst h2
        simp
      · rw [if_neg h2, if_neg (by omega)]

/-- Storing bytes keeps the canonical form. -/
theorem Memory.writeBytes_wf (m : Memory) (base : Nat) (bs : List Byte) (hm : m.wf = true) :
    (m.writeBytes base bs).wf = true := by
  induction bs generalizing m base with
  | nil => exact hm
  | cons b bs ih => exact ih _ _ (Memory.write_wf m base b hm)

/-- The addresses storing bytes can list: those stored to, and those listed before. -/
theorem Memory.mem_writeBytes (m : Memory) (base : Nat) (bs : List Byte) (c : Host.Cell)
    (h : c ∈ m.writeBytes base bs) : (base ≤ c.1 ∧ c.1 < base + bs.length) ∨ c ∈ m := by
  induction bs generalizing m base with
  | nil => exact .inr h
  | cons b bs ih =>
    rcases ih _ _ h with ⟨h1, h2⟩ | h1
    · exact .inl ⟨by omega, by simp only [List.length_cons]; omega⟩
    · rcases Memory.mem_write m base b c h1 with h2 | h2
      · exact .inl ⟨by omega, by simp only [List.length_cons]; omega⟩
      · exact .inr h2

@[simp] theorem Memory.readBytes_length (m : Memory) (base n : Nat) : (m.readBytes base n).length = n := by
  induction n generalizing base with
  | zero => rfl
  | succ n ih => simp [Memory.readBytes, ih]

theorem Memory.readBytes_getElem (m : Memory) (base n j : Nat) (h : j < n) :
    (m.readBytes base n)[j]? = some (m.read (base + j)) := by
  induction n generalizing base j with
  | zero => omega
  | succ n ih =>
    cases j with
    | zero => simp [Memory.readBytes]
    | succ j =>
      have e : base + (j + 1) = base + 1 + j := by omega
      rw [Memory.readBytes, List.getElem?_cons_succ, ih _ _ (by omega), e]

theorem checkRead_none_iff (a : Nat) : checkRead a = none ↔ a < 4096 := by
  simp [checkRead]

theorem checkWrite_none_iff (a : Nat) : checkWrite a = none ↔ a < 4096 ∧ inGlyphTable a = false := by
  unfold checkWrite
  split
  · cases inGlyphTable a <;> simp_all
  · simp_all

theorem inGlyphTable_iff (a : Nat) : inGlyphTable a = true ↔ 0x050 ≤ a ∧ a ≤ 0x09F := by
  simp [inGlyphTable]

/-- All the checks pass exactly when each byte's check passes. -/
theorem firstFault_none_iff (check : Nat → Option FaultInfo) (base n : Nat) :
    firstFault check base n = none ↔ ∀ k < n, check (base + k) = none := by
  induction n generalizing base with
  | zero => simp [firstFault]
  | succ n ih =>
    unfold firstFault
    cases hc : check base with
    | some f =>
      simp only [reduceCtorEq, false_iff]
      intro h
      have := h 0 (by omega)
      simp [hc] at this
    | none =>
      simp only [ih]
      constructor
      · intro h k hk
        cases k with
        | zero => simpa using hc
        | succ k =>
          have := h k (by omega)
          rwa [show base + (k + 1) = base + 1 + k by omega]
      · intro h k hk
        have := h (k + 1) (by omega)
        rwa [show base + (k + 1) = base + 1 + k by omega] at this

/-- A failing check is the first that fails: every byte before it passes (R205). -/
theorem firstFault_some_iff (check : Nat → Option FaultInfo) (base n : Nat) (f : FaultInfo) :
    firstFault check base n = some f ↔
      ∃ k < n, check (base + k) = some f ∧ ∀ j < k, check (base + j) = none := by
  induction n generalizing base with
  | zero => simp [firstFault]
  | succ n ih =>
    unfold firstFault
    cases hc : check base with
    | some g =>
      simp only [Option.some.injEq]
      constructor
      · rintro rfl
        exact ⟨0, by omega, by simpa using hc, fun j hj => by omega⟩
      · rintro ⟨k, _, hk, hj⟩
        cases k with
        | zero => simpa [hc] using hk
        | succ k =>
          have := hj 0 (by omega)
          simp [hc] at this
    | none =>
      simp only [ih]
      constructor
      · rintro ⟨k, hk, h1, h2⟩
        refine ⟨k + 1, by omega, by rwa [show base + (k + 1) = base + 1 + k by omega], fun j hj => ?_⟩
        cases j with
        | zero => simpa using hc
        | succ j =>
          have := h2 j (by omega)
          rwa [show base + (j + 1) = base + 1 + j by omega]
      · rintro ⟨k, hk, h1, h2⟩
        cases k with
        | zero => simp [hc] at h1
        | succ k =>
          refine ⟨k, by omega, by rwa [show base + (k + 1) = base + 1 + k by omega] at h1, fun j hj => ?_⟩
          have := h2 (j + 1) (by omega)
          rwa [show base + (j + 1) = base + 1 + j by omega] at this

end Sys2Proof.Machine
end

