-- ==== Sys2Proof/Laws/State.lean ====
section
/-! SUPPORT. What each named update does to each field of State and to the registers: one lemma per field per update,
so that no proof unfolds a record update. -/

namespace Sys2Proof.Machine

/-- The stack depth is at most 32 (R28, R38), with the parameter written out. -/
theorem State.sp_le (s : State) : s.sp.val ≤ 32 := Nat.le_of_lt_succ s.sp.isLt

@[simp] theorem State.setVF_eq_setReg (s : State) (b : Byte) : s.setVF b = s.setReg 0xF b := rfl

theorem State.reg_setReg (s : State) (x y : Nibble) (b : Byte) :
    (s.setReg x b).reg y = if y = x then b else s.reg y := by
  unfold State.reg State.setReg
  simp only [Vector.getElem_set, ← BitVec.toNat_inj, eq_comm]

@[simp] theorem State.reg_setReg_self (s : State) (x : Nibble) (b : Byte) : (s.setReg x b).reg x = b := by
  simp [State.reg_setReg]

theorem State.reg_setReg_ne (s : State) (x y : Nibble) (b : Byte) (h : y ≠ x) :
    (s.setReg x b).reg y = s.reg y := by
  simp [State.reg_setReg, h]

@[simp] theorem State.setReg_v (s : State) (x : Nibble) (b : Byte) : (s.setReg x b).v = s.v.set x.toNat b x.isLt := rfl
@[simp] theorem State.setReg_pc (s : State) (x : Nibble) (b : Byte) : (s.setReg x b).pc = s.pc := rfl
@[simp] theorem State.setReg_i (s : State) (x : Nibble) (b : Byte) : (s.setReg x b).i = s.i := rfl
@[simp] theorem State.setReg_sp (s : State) (x : Nibble) (b : Byte) : (s.setReg x b).sp = s.sp := rfl
@[simp] theorem State.setReg_stk (s : State) (x : Nibble) (b : Byte) : (s.setReg x b).stk = s.stk := rfl
@[simp] theorem State.setReg_dt (s : State) (x : Nibble) (b : Byte) : (s.setReg x b).dt = s.dt := rfl
@[simp] theorem State.setReg_st (s : State) (x : Nibble) (b : Byte) : (s.setReg x b).st = s.st := rfl
@[simp] theorem State.setReg_disp (s : State) (x : Nibble) (b : Byte) : (s.setReg x b).disp = s.disp := rfl
@[simp] theorem State.setReg_key (s : State) (x : Nibble) (b : Byte) : (s.setReg x b).key = s.key := rfl
@[simp] theorem State.setReg_paused (s : State) (x : Nibble) (b : Byte) : (s.setReg x b).paused = s.paused := rfl
@[simp] theorem State.setReg_fault (s : State) (x : Nibble) (b : Byte) : (s.setReg x b).fault = s.fault := rfl
@[simp] theorem State.setReg_mem (s : State) (x : Nibble) (b : Byte) : (s.setReg x b).mem = s.mem := rfl
@[simp] theorem State.setReg_draws (s : State) (x : Nibble) (b : Byte) : (s.setReg x b).draws = s.draws := rfl

@[simp] theorem State.advancePc_v (s : State) : (s.advancePc).v = s.v := rfl
@[simp] theorem State.advancePc_pc (s : State) : (s.advancePc).pc = s.pc + 2 := rfl
@[simp] theorem State.advancePc_i (s : State) : (s.advancePc).i = s.i := rfl
@[simp] theorem State.advancePc_sp (s : State) : (s.advancePc).sp = s.sp := rfl
@[simp] theorem State.advancePc_stk (s : State) : (s.advancePc).stk = s.stk := rfl
@[simp] theorem State.advancePc_dt (s : State) : (s.advancePc).dt = s.dt := rfl
@[simp] theorem State.advancePc_st (s : State) : (s.advancePc).st = s.st := rfl
@[simp] theorem State.advancePc_disp (s : State) : (s.advancePc).disp = s.disp := rfl
@[simp] theorem State.advancePc_key (s : State) : (s.advancePc).key = s.key := rfl
@[simp] theorem State.advancePc_paused (s : State) : (s.advancePc).paused = s.paused := rfl
@[simp] theorem State.advancePc_fault (s : State) : (s.advancePc).fault = s.fault := rfl
@[simp] theorem State.advancePc_mem (s : State) : (s.advancePc).mem = s.mem := rfl
@[simp] theorem State.advancePc_draws (s : State) : (s.advancePc).draws = s.draws := rfl
@[simp] theorem State.advancePc_reg (s : State) (r : Nibble) : (s.advancePc).reg r = s.reg r := rfl

@[simp] theorem State.setPc_v (s : State) (a : Word) : (s.setPc a).v = s.v := rfl
@[simp] theorem State.setPc_pc (s : State) (a : Word) : (s.setPc a).pc = a := rfl
@[simp] theorem State.setPc_i (s : State) (a : Word) : (s.setPc a).i = s.i := rfl
@[simp] theorem State.setPc_sp (s : State) (a : Word) : (s.setPc a).sp = s.sp := rfl
@[simp] theorem State.setPc_stk (s : State) (a : Word) : (s.setPc a).stk = s.stk := rfl
@[simp] theorem State.setPc_dt (s : State) (a : Word) : (s.setPc a).dt = s.dt := rfl
@[simp] theorem State.setPc_st (s : State) (a : Word) : (s.setPc a).st = s.st := rfl
@[simp] theorem State.setPc_disp (s : State) (a : Word) : (s.setPc a).disp = s.disp := rfl
@[simp] theorem State.setPc_key (s : State) (a : Word) : (s.setPc a).key = s.key := rfl
@[simp] theorem State.setPc_paused (s : State) (a : Word) : (s.setPc a).paused = s.paused := rfl
@[simp] theorem State.setPc_fault (s : State) (a : Word) : (s.setPc a).fault = s.fault := rfl
@[simp] theorem State.setPc_mem (s : State) (a : Word) : (s.setPc a).mem = s.mem := rfl
@[simp] theorem State.setPc_draws (s : State) (a : Word) : (s.setPc a).draws = s.draws := rfl
@[simp] theorem State.setPc_reg (s : State) (a : Word) (r : Nibble) : (s.setPc a).reg r = s.reg r := rfl

@[simp] theorem State.rewindPc_v (s : State) : (s.rewindPc).v = s.v := rfl
@[simp] theorem State.rewindPc_pc (s : State) : (s.rewindPc).pc = s.pc - 2 := rfl
@[simp] theorem State.rewindPc_i (s : State) : (s.rewindPc).i = s.i := rfl
@[simp] theorem State.rewindPc_sp (s : State) : (s.rewindPc).sp = s.sp := rfl
@[simp] theorem State.rewindPc_stk (s : State) : (s.rewindPc).stk = s.stk := rfl
@[simp] theorem State.rewindPc_dt (s : State) : (s.rewindPc).dt = s.dt := rfl
@[simp] theorem State.rewindPc_st (s : State) : (s.rewindPc).st = s.st := rfl
@[simp] theorem State.rewindPc_disp (s : State) : (s.rewindPc).disp = s.disp := rfl
@[simp] theorem State.rewindPc_key (s : State) : (s.rewindPc).key = s.key := rfl
@[simp] theorem State.rewindPc_paused (s : State) : (s.rewindPc).paused = s.paused := rfl
@[simp] theorem State.rewindPc_fault (s : State) : (s.rewindPc).fault = s.fault := rfl
@[simp] theorem State.rewindPc_mem (s : State) : (s.rewindPc).mem = s.mem := rfl
@[simp] theorem State.rewindPc_draws (s : State) : (s.rewindPc).draws = s.draws := rfl
@[simp] theorem State.rewindPc_reg (s : State) (r : Nibble) : (s.rewindPc).reg r = s.reg r := rfl

@[simp] theorem State.setI_v (s : State) (a : Word) : (s.setI a).v = s.v := rfl
@[simp] theorem State.setI_pc (s : State) (a : Word) : (s.setI a).pc = s.pc := rfl
@[simp] theorem State.setI_i (s : State) (a : Word) : (s.setI a).i = a := rfl
@[simp] theorem State.setI_sp (s : State) (a : Word) : (s.setI a).sp = s.sp := rfl
@[simp] theorem State.setI_stk (s : State) (a : Word) : (s.setI a).stk = s.stk := rfl
@[simp] theorem State.setI_dt (s : State) (a : Word) : (s.setI a).dt = s.dt := rfl
@[simp] theorem State.setI_st (s : State) (a : Word) : (s.setI a).st = s.st := rfl
@[simp] theorem State.setI_disp (s : State) (a : Word) : (s.setI a).disp = s.disp := rfl
@[simp] theorem State.setI_key (s : State) (a : Word) : (s.setI a).key = s.key := rfl
@[simp] theorem State.setI_paused (s : State) (a : Word) : (s.setI a).paused = s.paused := rfl
@[simp] theorem State.setI_fault (s : State) (a : Word) : (s.setI a).fault = s.fault := rfl
@[simp] theorem State.setI_mem (s : State) (a : Word) : (s.setI a).mem = s.mem := rfl
@[simp] theorem State.setI_draws (s : State) (a : Word) : (s.setI a).draws = s.draws := rfl
@[simp] theorem State.setI_reg (s : State) (a : Word) (r : Nibble) : (s.setI a).reg r = s.reg r := rfl

@[simp] theorem State.pop_v (s : State) : (s.pop).v = s.v := rfl
@[simp] theorem State.pop_pc (s : State) : (s.pop).pc = s.pc := rfl
@[simp] theorem State.pop_i (s : State) : (s.pop).i = s.i := rfl
@[simp] theorem State.pop_stk (s : State) : (s.pop).stk = s.stk := rfl
@[simp] theorem State.pop_dt (s : State) : (s.pop).dt = s.dt := rfl
@[simp] theorem State.pop_st (s : State) : (s.pop).st = s.st := rfl
@[simp] theorem State.pop_disp (s : State) : (s.pop).disp = s.disp := rfl
@[simp] theorem State.pop_key (s : State) : (s.pop).key = s.key := rfl
@[simp] theorem State.pop_paused (s : State) : (s.pop).paused = s.paused := rfl
@[simp] theorem State.pop_fault (s : State) : (s.pop).fault = s.fault := rfl
@[simp] theorem State.pop_mem (s : State) : (s.pop).mem = s.mem := rfl
@[simp] theorem State.pop_draws (s : State) : (s.pop).draws = s.draws := rfl
@[simp] theorem State.pop_reg (s : State) (r : Nibble) : (s.pop).reg r = s.reg r := rfl

@[simp] theorem State.setDT_v (s : State) (b : Byte) : (s.setDT b).v = s.v := rfl
@[simp] theorem State.setDT_pc (s : State) (b : Byte) : (s.setDT b).pc = s.pc := rfl
@[simp] theorem State.setDT_i (s : State) (b : Byte) : (s.setDT b).i = s.i := rfl
@[simp] theorem State.setDT_sp (s : State) (b : Byte) : (s.setDT b).sp = s.sp := rfl
@[simp] theorem State.setDT_stk (s : State) (b : Byte) : (s.setDT b).stk = s.stk := rfl
@[simp] theorem State.setDT_dt (s : State) (b : Byte) : (s.setDT b).dt = b := rfl
@[simp] theorem State.setDT_st (s : State) (b : Byte) : (s.setDT b).st = s.st := rfl
@[simp] theorem State.setDT_disp (s : State) (b : Byte) : (s.setDT b).disp = s.disp := rfl
@[simp] theorem State.setDT_key (s : State) (b : Byte) : (s.setDT b).key = s.key := rfl
@[simp] theorem State.setDT_paused (s : State) (b : Byte) : (s.setDT b).paused = s.paused := rfl
@[simp] theorem State.setDT_fault (s : State) (b : Byte) : (s.setDT b).fault = s.fault := rfl
@[simp] theorem State.setDT_mem (s : State) (b : Byte) : (s.setDT b).mem = s.mem := rfl
@[simp] theorem State.setDT_draws (s : State) (b : Byte) : (s.setDT b).draws = s.draws := rfl
@[simp] theorem State.setDT_reg (s : State) (b : Byte) (r : Nibble) : (s.setDT b).reg r = s.reg r := rfl

@[simp] theorem State.setST_v (s : State) (b : Byte) : (s.setST b).v = s.v := rfl
@[simp] theorem State.setST_pc (s : State) (b : Byte) : (s.setST b).pc = s.pc := rfl
@[simp] theorem State.setST_i (s : State) (b : Byte) : (s.setST b).i = s.i := rfl
@[simp] theorem State.setST_sp (s : State) (b : Byte) : (s.setST b).sp = s.sp := rfl
@[simp] theorem State.setST_stk (s : State) (b : Byte) : (s.setST b).stk = s.stk := rfl
@[simp] theorem State.setST_dt (s : State) (b : Byte) : (s.setST b).dt = s.dt := rfl
@[simp] theorem State.setST_st (s : State) (b : Byte) : (s.setST b).st = b := rfl
@[simp] theorem State.setST_disp (s : State) (b : Byte) : (s.setST b).disp = s.disp := rfl
@[simp] theorem State.setST_key (s : State) (b : Byte) : (s.setST b).key = s.key := rfl
@[simp] theorem State.setST_paused (s : State) (b : Byte) : (s.setST b).paused = s.paused := rfl
@[simp] theorem State.setST_fault (s : State) (b : Byte) : (s.setST b).fault = s.fault := rfl
@[simp] theorem State.setST_mem (s : State) (b : Byte) : (s.setST b).mem = s.mem := rfl
@[simp] theorem State.setST_draws (s : State) (b : Byte) : (s.setST b).draws = s.draws := rfl
@[simp] theorem State.setST_reg (s : State) (b : Byte) (r : Nibble) : (s.setST b).reg r = s.reg r := rfl

@[simp] theorem State.setDisp_v (s : State) (d : Display) : (s.setDisp d).v = s.v := rfl
@[simp] theorem State.setDisp_pc (s : State) (d : Display) : (s.setDisp d).pc = s.pc := rfl
@[simp] theorem State.setDisp_i (s : State) (d : Display) : (s.setDisp d).i = s.i := rfl
@[simp] theorem State.setDisp_sp (s : State) (d : Display) : (s.setDisp d).sp = s.sp := rfl
@[simp] theorem State.setDisp_stk (s : State) (d : Display) : (s.setDisp d).stk = s.stk := rfl
@[simp] theorem State.setDisp_dt (s : State) (d : Display) : (s.setDisp d).dt = s.dt := rfl
@[simp] theorem State.setDisp_st (s : State) (d : Display) : (s.setDisp d).st = s.st := rfl
@[simp] theorem State.setDisp_disp (s : State) (d : Display) : (s.setDisp d).disp = d := rfl
@[simp] theorem State.setDisp_key (s : State) (d : Display) : (s.setDisp d).key = s.key := rfl
@[simp] theorem State.setDisp_paused (s : State) (d : Display) : (s.setDisp d).paused = s.paused := rfl
@[simp] theorem State.setDisp_fault (s : State) (d : Display) : (s.setDisp d).fault = s.fault := rfl
@[simp] theorem State.setDisp_mem (s : State) (d : Display) : (s.setDisp d).mem = s.mem := rfl
@[simp] theorem State.setDisp_draws (s : State) (d : Display) : (s.setDisp d).draws = s.draws := rfl
@[simp] theorem State.setDisp_reg (s : State) (d : Display) (r : Nibble) : (s.setDisp d).reg r = s.reg r := rfl

@[simp] theorem State.setPaused_v (s : State) (b : Bool) : (s.setPaused b).v = s.v := rfl
@[simp] theorem State.setPaused_pc (s : State) (b : Bool) : (s.setPaused b).pc = s.pc := rfl
@[simp] theorem State.setPaused_i (s : State) (b : Bool) : (s.setPaused b).i = s.i := rfl
@[simp] theorem State.setPaused_sp (s : State) (b : Bool) : (s.setPaused b).sp = s.sp := rfl
@[simp] theorem State.setPaused_stk (s : State) (b : Bool) : (s.setPaused b).stk = s.stk := rfl
@[simp] theorem State.setPaused_dt (s : State) (b : Bool) : (s.setPaused b).dt = s.dt := rfl
@[simp] theorem State.setPaused_st (s : State) (b : Bool) : (s.setPaused b).st = s.st := rfl
@[simp] theorem State.setPaused_disp (s : State) (b : Bool) : (s.setPaused b).disp = s.disp := rfl
@[simp] theorem State.setPaused_key (s : State) (b : Bool) : (s.setPaused b).key = s.key := rfl
@[simp] theorem State.setPaused_paused (s : State) (b : Bool) : (s.setPaused b).paused = b := rfl
@[simp] theorem State.setPaused_fault (s : State) (b : Bool) : (s.setPaused b).fault = s.fault := rfl
@[simp] theorem State.setPaused_mem (s : State) (b : Bool) : (s.setPaused b).mem = s.mem := rfl
@[simp] theorem State.setPaused_draws (s : State) (b : Bool) : (s.setPaused b).draws = s.draws := rfl
@[simp] theorem State.setPaused_reg (s : State) (b : Bool) (r : Nibble) : (s.setPaused b).reg r = s.reg r := rfl

@[simp] theorem State.setMem_v (s : State) (m : Memory) : (s.setMem m).v = s.v := rfl
@[simp] theorem State.setMem_pc (s : State) (m : Memory) : (s.setMem m).pc = s.pc := rfl
@[simp] theorem State.setMem_i (s : State) (m : Memory) : (s.setMem m).i = s.i := rfl
@[simp] theorem State.setMem_sp (s : State) (m : Memory) : (s.setMem m).sp = s.sp := rfl
@[simp] theorem State.setMem_stk (s : State) (m : Memory) : (s.setMem m).stk = s.stk := rfl
@[simp] theorem State.setMem_dt (s : State) (m : Memory) : (s.setMem m).dt = s.dt := rfl
@[simp] theorem State.setMem_st (s : State) (m : Memory) : (s.setMem m).st = s.st := rfl
@[simp] theorem State.setMem_disp (s : State) (m : Memory) : (s.setMem m).disp = s.disp := rfl
@[simp] theorem State.setMem_key (s : State) (m : Memory) : (s.setMem m).key = s.key := rfl
@[simp] theorem State.setMem_paused (s : State) (m : Memory) : (s.setMem m).paused = s.paused := rfl
@[simp] theorem State.setMem_fault (s : State) (m : Memory) : (s.setMem m).fault = s.fault := rfl
@[simp] theorem State.setMem_mem (s : State) (m : Memory) : (s.setMem m).mem = m := rfl
@[simp] theorem State.setMem_draws (s : State) (m : Memory) : (s.setMem m).draws = s.draws := rfl
@[simp] theorem State.setMem_reg (s : State) (m : Memory) (r : Nibble) : (s.setMem m).reg r = s.reg r := rfl

@[simp] theorem State.setKey_v (s : State) (k : Nibble) (b : Bool) : (s.setKey k b).v = s.v := rfl
@[simp] theorem State.setKey_pc (s : State) (k : Nibble) (b : Bool) : (s.setKey k b).pc = s.pc := rfl
@[simp] theorem State.setKey_i (s : State) (k : Nibble) (b : Bool) : (s.setKey k b).i = s.i := rfl
@[simp] theorem State.setKey_sp (s : State) (k : Nibble) (b : Bool) : (s.setKey k b).sp = s.sp := rfl
@[simp] theorem State.setKey_stk (s : State) (k : Nibble) (b : Bool) : (s.setKey k b).stk = s.stk := rfl
@[simp] theorem State.setKey_dt (s : State) (k : Nibble) (b : Bool) : (s.setKey k b).dt = s.dt := rfl
@[simp] theorem State.setKey_st (s : State) (k : Nibble) (b : Bool) : (s.setKey k b).st = s.st := rfl
@[simp] theorem State.setKey_disp (s : State) (k : Nibble) (b : Bool) : (s.setKey k b).disp = s.disp := rfl
@[simp] theorem State.setKey_key (s : State) (k : Nibble) (b : Bool) : (s.setKey k b).key = s.key.set k.toNat b k.isLt := rfl
@[simp] theorem State.setKey_paused (s : State) (k : Nibble) (b : Bool) : (s.setKey k b).paused = s.paused := rfl
@[simp] theorem State.setKey_fault (s : State) (k : Nibble) (b : Bool) : (s.setKey k b).fault = s.fault := rfl
@[simp] theorem State.setKey_mem (s : State) (k : Nibble) (b : Bool) : (s.setKey k b).mem = s.mem := rfl
@[simp] theorem State.setKey_draws (s : State) (k : Nibble) (b : Bool) : (s.setKey k b).draws = s.draws := rfl
@[simp] theorem State.setKey_reg (s : State) (k : Nibble) (b : Bool) (r : Nibble) : (s.setKey k b).reg r = s.reg r := rfl

@[simp] theorem State.countDraw_v (s : State) : (s.countDraw).v = s.v := rfl
@[simp] theorem State.countDraw_pc (s : State) : (s.countDraw).pc = s.pc := rfl
@[simp] theorem State.countDraw_i (s : State) : (s.countDraw).i = s.i := rfl
@[simp] theorem State.countDraw_sp (s : State) : (s.countDraw).sp = s.sp := rfl
@[simp] theorem State.countDraw_stk (s : State) : (s.countDraw).stk = s.stk := rfl
@[simp] theorem State.countDraw_dt (s : State) : (s.countDraw).dt = s.dt := rfl
@[simp] theorem State.countDraw_st (s : State) : (s.countDraw).st = s.st := rfl
@[simp] theorem State.countDraw_disp (s : State) : (s.countDraw).disp = s.disp := rfl
@[simp] theorem State.countDraw_key (s : State) : (s.countDraw).key = s.key := rfl
@[simp] theorem State.countDraw_paused (s : State) : (s.countDraw).paused = s.paused := rfl
@[simp] theorem State.countDraw_fault (s : State) : (s.countDraw).fault = s.fault := rfl
@[simp] theorem State.countDraw_mem (s : State) : (s.countDraw).mem = s.mem := rfl
@[simp] theorem State.countDraw_draws (s : State) : (s.countDraw).draws = s.draws + 1 := rfl
@[simp] theorem State.countDraw_reg (s : State) (r : Nibble) : (s.countDraw).reg r = s.reg r := rfl

@[simp] theorem State.takeFault_v (s : State) (w : Option Word) (f : FaultInfo) : (s.takeFault w f).v = s.v := rfl
@[simp] theorem State.takeFault_pc (s : State) (w : Option Word) (f : FaultInfo) : (s.takeFault w f).pc = s.pc := rfl
@[simp] theorem State.takeFault_i (s : State) (w : Option Word) (f : FaultInfo) : (s.takeFault w f).i = s.i := rfl
@[simp] theorem State.takeFault_sp (s : State) (w : Option Word) (f : FaultInfo) : (s.takeFault w f).sp = s.sp := rfl
@[simp] theorem State.takeFault_stk (s : State) (w : Option Word) (f : FaultInfo) : (s.takeFault w f).stk = s.stk := rfl
@[simp] theorem State.takeFault_dt (s : State) (w : Option Word) (f : FaultInfo) : (s.takeFault w f).dt = s.dt := rfl
@[simp] theorem State.takeFault_st (s : State) (w : Option Word) (f : FaultInfo) : (s.takeFault w f).st = s.st := rfl
@[simp] theorem State.takeFault_disp (s : State) (w : Option Word) (f : FaultInfo) : (s.takeFault w f).disp = s.disp := rfl
@[simp] theorem State.takeFault_key (s : State) (w : Option Word) (f : FaultInfo) : (s.takeFault w f).key = s.key := rfl
@[simp] theorem State.takeFault_paused (s : State) (w : Option Word) (f : FaultInfo) : (s.takeFault w f).paused = s.paused := rfl
@[simp] theorem State.takeFault_fault (s : State) (w : Option Word) (f : FaultInfo) : (s.takeFault w f).fault = some ⟨f.code, s.pc, w, f.addr⟩ := rfl
@[simp] theorem State.takeFault_mem (s : State) (w : Option Word) (f : FaultInfo) : (s.takeFault w f).mem = s.mem := rfl
@[simp] theorem State.takeFault_draws (s : State) (w : Option Word) (f : FaultInfo) : (s.takeFault w f).draws = s.draws := rfl
@[simp] theorem State.takeFault_reg (s : State) (w : Option Word) (f : FaultInfo) (r : Nibble) : (s.takeFault w f).reg r = s.reg r := rfl

@[simp] theorem State.load_v (s : State) (bytes : List Byte) : (s.load bytes).v = s.v := rfl
@[simp] theorem State.load_pc (s : State) (bytes : List Byte) : (s.load bytes).pc = s.pc := rfl
@[simp] theorem State.load_i (s : State) (bytes : List Byte) : (s.load bytes).i = s.i := rfl
@[simp] theorem State.load_sp (s : State) (bytes : List Byte) : (s.load bytes).sp = s.sp := rfl
@[simp] theorem State.load_stk (s : State) (bytes : List Byte) : (s.load bytes).stk = s.stk := rfl
@[simp] theorem State.load_dt (s : State) (bytes : List Byte) : (s.load bytes).dt = s.dt := rfl
@[simp] theorem State.load_st (s : State) (bytes : List Byte) : (s.load bytes).st = s.st := rfl
@[simp] theorem State.load_disp (s : State) (bytes : List Byte) : (s.load bytes).disp = s.disp := rfl
@[simp] theorem State.load_key (s : State) (bytes : List Byte) : (s.load bytes).key = s.key := rfl
@[simp] theorem State.load_paused (s : State) (bytes : List Byte) : (s.load bytes).paused = s.paused := rfl
@[simp] theorem State.load_fault (s : State) (bytes : List Byte) : (s.load bytes).fault = s.fault := rfl
@[simp] theorem State.load_mem (s : State) (bytes : List Byte) : (s.load bytes).mem = s.mem.writeBytes Config.progBase (bytes.take Config.progCapacity) := rfl
@[simp] theorem State.load_draws (s : State) (bytes : List Byte) : (s.load bytes).draws = s.draws := rfl
@[simp] theorem State.load_reg (s : State) (bytes : List Byte) (r : Nibble) : (s.load bytes).reg r = s.reg r := rfl

@[simp] theorem State.skipIf_v (s : State) (c : Bool) : (s.skipIf c).v = s.v := by unfold State.skipIf; split <;> rfl
@[simp] theorem State.skipIf_pc (s : State) (c : Bool) : (s.skipIf c).pc = if c then s.pc + 2 else s.pc := by unfold State.skipIf; split <;> rfl
@[simp] theorem State.skipIf_i (s : State) (c : Bool) : (s.skipIf c).i = s.i := by unfold State.skipIf; split <;> rfl
@[simp] theorem State.skipIf_sp (s : State) (c : Bool) : (s.skipIf c).sp = s.sp := by unfold State.skipIf; split <;> rfl
@[simp] theorem State.skipIf_stk (s : State) (c : Bool) : (s.skipIf c).stk = s.stk := by unfold State.skipIf; split <;> rfl
@[simp] theorem State.skipIf_dt (s : State) (c : Bool) : (s.skipIf c).dt = s.dt := by unfold State.skipIf; split <;> rfl
@[simp] theorem State.skipIf_st (s : State) (c : Bool) : (s.skipIf c).st = s.st := by unfold State.skipIf; split <;> rfl
@[simp] theorem State.skipIf_disp (s : State) (c : Bool) : (s.skipIf c).disp = s.disp := by unfold State.skipIf; split <;> rfl
@[simp] theorem State.skipIf_key (s : State) (c : Bool) : (s.skipIf c).key = s.key := by unfold State.skipIf; split <;> rfl
@[simp] theorem State.skipIf_paused (s : State) (c : Bool) : (s.skipIf c).paused = s.paused := by unfold State.skipIf; split <;> rfl
@[simp] theorem State.skipIf_fault (s : State) (c : Bool) : (s.skipIf c).fault = s.fault := by unfold State.skipIf; split <;> rfl
@[simp] theorem State.skipIf_mem (s : State) (c : Bool) : (s.skipIf c).mem = s.mem := by unfold State.skipIf; split <;> rfl
@[simp] theorem State.skipIf_draws (s : State) (c : Bool) : (s.skipIf c).draws = s.draws := by unfold State.skipIf; split <;> rfl
@[simp] theorem State.skipIf_reg (s : State) (c : Bool) (r : Nibble) : (s.skipIf c).reg r = s.reg r := by unfold State.skipIf; split <;> rfl

@[simp] theorem State.push_v (s : State) (a : Word) : (s.push a).v = s.v := by unfold State.push; split <;> rfl
@[simp] theorem State.push_pc (s : State) (a : Word) : (s.push a).pc = s.pc := by unfold State.push; split <;> rfl
@[simp] theorem State.push_i (s : State) (a : Word) : (s.push a).i = s.i := by unfold State.push; split <;> rfl
@[simp] theorem State.push_dt (s : State) (a : Word) : (s.push a).dt = s.dt := by unfold State.push; split <;> rfl
@[simp] theorem State.push_st (s : State) (a : Word) : (s.push a).st = s.st := by unfold State.push; split <;> rfl
@[simp] theorem State.push_disp (s : State) (a : Word) : (s.push a).disp = s.disp := by unfold State.push; split <;> rfl
@[simp] theorem State.push_key (s : State) (a : Word) : (s.push a).key = s.key := by unfold State.push; split <;> rfl
@[simp] theorem State.push_paused (s : State) (a : Word) : (s.push a).paused = s.paused := by unfold State.push; split <;> rfl
@[simp] theorem State.push_fault (s : State) (a : Word) : (s.push a).fault = s.fault := by unfold State.push; split <;> rfl
@[simp] theorem State.push_mem (s : State) (a : Word) : (s.push a).mem = s.mem := by unfold State.push; split <;> rfl
@[simp] theorem State.push_draws (s : State) (a : Word) : (s.push a).draws = s.draws := by unfold State.push; split <;> rfl
@[simp] theorem State.push_reg (s : State) (a : Word) (r : Nibble) : (s.push a).reg r = s.reg r := by unfold State.push; split <;> rfl

@[simp] theorem State.decay_v (s : State) : (s.decay).v = s.v := by unfold State.decay; split <;> rfl
@[simp] theorem State.decay_pc (s : State) : (s.decay).pc = s.pc := by unfold State.decay; split <;> rfl
@[simp] theorem State.decay_i (s : State) : (s.decay).i = s.i := by unfold State.decay; split <;> rfl
@[simp] theorem State.decay_sp (s : State) : (s.decay).sp = s.sp := by unfold State.decay; split <;> rfl
@[simp] theorem State.decay_stk (s : State) : (s.decay).stk = s.stk := by unfold State.decay; split <;> rfl
@[simp] theorem State.decay_dt (s : State) : (s.decay).dt = if s.fault.isSome || s.paused then s.dt else decrement s.dt := by unfold State.decay; split <;> rfl
@[simp] theorem State.decay_st (s : State) : (s.decay).st = if s.fault.isSome || s.paused then s.st else decrement s.st := by unfold State.decay; split <;> rfl
@[simp] theorem State.decay_disp (s : State) : (s.decay).disp = s.disp := by unfold State.decay; split <;> rfl
@[simp] theorem State.decay_key (s : State) : (s.decay).key = s.key := by unfold State.decay; split <;> rfl
@[simp] theorem State.decay_paused (s : State) : (s.decay).paused = s.paused := by unfold State.decay; split <;> rfl
@[simp] theorem State.decay_fault (s : State) : (s.decay).fault = s.fault := by unfold State.decay; split <;> rfl
@[simp] theorem State.decay_mem (s : State) : (s.decay).mem = s.mem := by unfold State.decay; split <;> rfl
@[simp] theorem State.decay_draws (s : State) : (s.decay).draws = s.draws := by unfold State.decay; split <;> rfl
@[simp] theorem State.decay_reg (s : State) (r : Nibble) : (s.decay).reg r = s.reg r := by unfold State.decay; split <;> rfl

theorem State.pop_sp (s : State) : s.pop.sp.val = s.sp.val - 1 := rfl

theorem State.push_sp (s : State) (a : Word) (h : s.sp.val < 32) : (s.push a).sp.val = s.sp.val + 1 := by
  simp [State.push, h]

/-- What a push that fits does to the entries: the one at SP is written, every other stays. -/
theorem State.push_entry (s : State) (a : Word) (h : s.sp.val < 32) (j : Fin 32) :
    (s.push a).stk[j] = if j.val = s.sp.val then a else s.stk[j] := by
  simp [State.push, h, Vector.getElem_set, eq_comm]

theorem State.top_push (s : State) (a : Word) (h : s.sp.val < 32) : (s.push a).top = a := by
  simp [State.top, State.push, h]

@[simp] theorem State.setRegs_pc (s : State) (k : Nat) (bs : List Byte) : (s.setRegs k bs).pc = s.pc := by
  induction bs generalizing s k with
  | nil => rfl
  | cons b bs ih => simp [State.setRegs, ih]
@[simp] theorem State.setRegs_i (s : State) (k : Nat) (bs : List Byte) : (s.setRegs k bs).i = s.i := by
  induction bs generalizing s k with
  | nil => rfl
  | cons b bs ih => simp [State.setRegs, ih]
@[simp] theorem State.setRegs_sp (s : State) (k : Nat) (bs : List Byte) : (s.setRegs k bs).sp = s.sp := by
  induction bs generalizing s k with
  | nil => rfl
  | cons b bs ih => simp [State.setRegs, ih]
@[simp] theorem State.setRegs_stk (s : State) (k : Nat) (bs : List Byte) : (s.setRegs k bs).stk = s.stk := by
  induction bs generalizing s k with
  | nil => rfl
  | cons b bs ih => simp [State.setRegs, ih]
@[simp] theorem State.setRegs_dt (s : State) (k : Nat) (bs : List Byte) : (s.setRegs k bs).dt = s.dt := by
  induction bs generalizing s k with
  | nil => rfl
  | cons b bs ih => simp [State.setRegs, ih]
@[simp] theorem State.setRegs_st (s : State) (k : Nat) (bs : List Byte) : (s.setRegs k bs).st = s.st := by
  induction bs generalizing s k with
  | nil => rfl
  | cons b bs ih => simp [State.setRegs, ih]
@[simp] theorem State.setRegs_disp (s : State) (k : Nat) (bs : List Byte) : (s.setRegs k bs).disp = s.disp := by
  induction bs generalizing s k with
  | nil => rfl
  | cons b bs ih => simp [State.setRegs, ih]
@[simp] theorem State.setRegs_key (s : State) (k : Nat) (bs : List Byte) : (s.setRegs k bs).key = s.key := by
  induction bs generalizing s k with
  | nil => rfl
  | cons b bs ih => simp [State.setRegs, ih]
@[simp] theorem State.setRegs_paused (s : State) (k : Nat) (bs : List Byte) : (s.setRegs k bs).paused = s.paused := by
  induction bs generalizing s k with
  | nil => rfl
  | cons b bs ih => simp [State.setRegs, ih]
@[simp] theorem State.setRegs_fault (s : State) (k : Nat) (bs : List Byte) : (s.setRegs k bs).fault = s.fault := by
  induction bs generalizing s k with
  | nil => rfl
  | cons b bs ih => simp [State.setRegs, ih]
@[simp] theorem State.setRegs_mem (s : State) (k : Nat) (bs : List Byte) : (s.setRegs k bs).mem = s.mem := by
  induction bs generalizing s k with
  | nil => rfl
  | cons b bs ih => simp [State.setRegs, ih]
@[simp] theorem State.setRegs_draws (s : State) (k : Nat) (bs : List Byte) : (s.setRegs k bs).draws = s.draws := by
  induction bs generalizing s k with
  | nil => rfl
  | cons b bs ih => simp [State.setRegs, ih]

/-- What loading registers from a list does: register `k + j` takes byte `j`, every other register stays. -/
theorem State.setRegs_reg (s : State) (k : Nat) (bs : List Byte) (h : k + bs.length ≤ 16) (r : Nibble) :
    (s.setRegs k bs).reg r
      = if k ≤ r.toNat ∧ r.toNat < k + bs.length then (bs[r.toNat - k]?).getD 0 else s.reg r := by
  induction bs generalizing s k with
  | nil => simp [State.setRegs]
  | cons b bs ih =>
    simp only [List.length_cons] at h ⊢
    simp only [State.setRegs]
    rw [ih _ _ (by omega), State.reg_setReg]
    have hk : (BitVec.ofNat 4 k).toNat = k := by simp; omega
    have hr := r.isLt
    by_cases h1 : k + 1 ≤ r.toNat ∧ r.toNat < k + 1 + bs.length
    · have e : r.toNat - k = (r.toNat - (k + 1)) + 1 := by omega
      rw [if_pos h1, if_pos (by omega), e, List.getElem?_cons_succ]
    · rw [if_neg h1]
      by_cases h2 : r = BitVec.ofNat 4 k
      · have e : r.toNat = k := by rw [h2, hk]
        rw [if_pos h2, if_pos (by omega), e]
        simp
      · have e : r.toNat ≠ k := fun h3 => h2 (by apply BitVec.eq_of_toNat_eq; rw [hk, h3])
        rw [if_neg h2, if_neg (by omega)]

/-- The bytes Fx55 stores: byte `j` is register `j`. -/
theorem State.regsUpTo_getElem (s : State) (x : Nibble) (j : Nat) (h : j ≤ x.toNat) :
    (s.regsUpTo x)[j]? = some (s.reg (BitVec.ofNat 4 j)) := by
  have hx := x.isLt
  unfold State.regsUpTo State.reg
  rw [List.getElem?_take_of_lt (by omega), List.getElem?_eq_getElem (by simp; omega)]
  have e : (BitVec.ofNat 4 j).toNat = j := by simp; omega
  simp only [e, Vector.getElem_toList]

@[simp] theorem State.regsUpTo_length (s : State) (x : Nibble) : (s.regsUpTo x).length = x.toNat + 1 := by
  have hx := x.isLt
  simp [State.regsUpTo]
  omega

end Sys2Proof.Machine
end

