-- ==== Sys2Proof/Laws/Input.lean ====
section
/-! SUPPORT. The input latch (R32, R163), the key and access checks as conditions on the state (R166, R55, R56). -/

namespace Sys2Proof.Machine

/-- A key event sets the latch of its own key and no other (R220). -/
theorem State.keyHeld_setKey (s : State) (k j : Nibble) (b : Bool) :
    (s.setKey k b).keyHeld j = if j = k then b else s.keyHeld j := by
  simp [State.keyHeld, State.setKey, Vector.getElem_set, ← BitVec.toNat_inj, eq_comm]

/-- The scan finds the lowest held key (R163). -/
theorem State.lowestKey_of_held (s : State) (k : Nibble) (h : s.keyHeld k = true)
    (hl : ∀ j : Nibble, j.toNat < k.toNat → s.keyHeld j = false) : s.lowestKey = some k.toNat := by
  unfold State.lowestKey
  rw [List.findIdx?_eq_some_iff_getElem]
  have := k.isLt
  refine ⟨by simp; omega, by simpa [State.keyHeld] using h, ?_⟩
  intro j hj
  have := hl (BitVec.ofNat 4 j) (by simp; omega)
  simp [State.keyHeld, Nat.mod_eq_of_lt (show j < 16 by omega)] at this
  simp [this]

/-- The scan finds nothing where no key is held (R163). -/
theorem State.lowestKey_of_none (s : State) (h : ∀ k : Nibble, s.keyHeld k = false) : s.lowestKey = none := by
  unfold State.lowestKey
  rw [List.findIdx?_eq_none_iff]
  intro b hb
  obtain ⟨j, hj, rfl⟩ := List.mem_iff_getElem.mp hb
  simp at hj
  have := h (BitVec.ofNat 4 j)
  simp [State.keyHeld, Nat.mod_eq_of_lt (show j < 16 by omega)] at this
  simp [this]

theorem effAddr_add (s : State) (k : Nat) : effAddr s 0 + k = effAddr s k := by simp [effAddr]

theorem writable_iff (s : State) (k : Nat) : Writable s k ↔ checkWrite (effAddr s k) = none := by
  rw [checkWrite_none_iff, Writable, ← inGlyphTable_iff]; simp

theorem readable_iff (s : State) (k : Nat) : Readable s k ↔ checkRead (effAddr s k) = none := by
  rw [checkRead_none_iff, Readable]

theorem checkRead_some (a : Nat) (f : FaultInfo) (h : checkRead a = some f) :
    4096 ≤ a ∧ f = ⟨.addressOutOfRange, some a⟩ := by
  unfold checkRead at h
  split at h <;> simp_all

/-- A failing write check: the range first, then the glyph table (R56, R205). -/
theorem checkWrite_some (a : Nat) (f : FaultInfo) (h : checkWrite a = some f) :
    (4096 ≤ a ∧ f = ⟨.addressOutOfRange, some a⟩) ∨ ((0x050 ≤ a ∧ a ≤ 0x09F) ∧ f = ⟨.glyphWrite, some a⟩) := by
  unfold checkWrite at h
  split at h
  · split at h
    · rename_i h2
      rw [inGlyphTable_iff] at h2
      simp at h
      exact .inr ⟨h2, h.symm⟩
    · cases h
  · rename_i h1
    simp at h h1
    exact .inl ⟨h1, h.symm⟩

end Sys2Proof.Machine
end

