-- ==== Sys2Proof/Laws/PerInstr.lean ====
section
/-! SUPPORT. The per-instruction family Encoded: the word of every instruction is the word of that instruction's own
row of the opcode table (30_encoding.md R84, R85). -/

namespace Sys2Proof

/-- The instruction's word matches the match and mask pair of its row of spec/opcode_table.json. -/
def Laws.Encoded.Statement (i : Instr) : Prop :=
  ∃ r, opcodeTable[i.row]? = some r ∧ r.matchesWord (encode i) = true

/-- The mask 0xF000 keeps the leading nibble. -/
theorem packXYN_and_F000 (a b c d : Nibble) : packXYN a b c d &&& (0xF000 : Word) = packXYN a 0 0 0 := by
  rw [show ((0xF000 : Word) : Word) = packXYN 0xF 0 0 0 by decide, packXYN_and]
  rw [show a &&& 0xF = a by revert a; decide]
  simp

/-- The mask 0xF00F keeps the leading nibble and n. -/
theorem packXYN_and_F00F (a b c d : Nibble) : packXYN a b c d &&& (0xF00F : Word) = packXYN a 0 0 d := by
  rw [show ((0xF00F : Word) : Word) = packXYN 0xF 0 0 0xF by decide, packXYN_and]
  rw [show a &&& 0xF = a by revert a; decide, show d &&& 0xF = d by revert d; decide]
  simp

/-- The mask 0xF0FF keeps the leading nibble and nn. -/
theorem packXYN_and_F0FF (a b c d : Nibble) : packXYN a b c d &&& (0xF0FF : Word) = packXYN a 0 c d := by
  rw [show ((0xF0FF : Word) : Word) = packXYN 0xF 0 0xF 0xF by decide, packXYN_and]
  rw [show a &&& 0xF = a by revert a; decide, show c &&& 0xF = c by revert c; decide,
    show d &&& 0xF = d by revert d; decide]
  simp

theorem packNNN_and_F000 (op : Nibble) (nnn : Imm12) : packNNN op nnn &&& (0xF000 : Word) = packXYN op 0 0 0 := by
  rw [← packXYN_fields (packNNN op nnn), packXYN_and_F000, opField_packNNN]

theorem packXNN_and_F000 (op x : Nibble) (nn : Byte) : packXNN op x nn &&& (0xF000 : Word) = packXYN op 0 0 0 := by
  rw [← packXYN_fields (packXNN op x nn), packXYN_and_F000, opField_packXNN]

theorem packXNN_and_F0FF (op x y n : Nibble) (nn : Byte) (h : nn.toNat = y.toNat * 16 + n.toNat) :
    packXNN op x nn &&& (0xF0FF : Word) = packXYN op 0 y n := by
  rw [packXNN_eq_packXYN op x y n nn h, packXYN_and_F0FF]

theorem Laws.Encoded.cls : Laws.Encoded.Statement .cls :=
  ⟨_, rfl, by decide⟩

theorem Laws.Encoded.ret : Laws.Encoded.Statement .ret :=
  ⟨_, rfl, by decide⟩

theorem Laws.Encoded.jp (nnn : Imm12) : Laws.Encoded.Statement (.jp nnn) :=
  ⟨_, rfl, by
    simp only [OpcodeRow.matchesWord, encode, packNNN_and_F000]; decide⟩

theorem Laws.Encoded.call (nnn : Imm12) : Laws.Encoded.Statement (.call nnn) :=
  ⟨_, rfl, by
    simp only [OpcodeRow.matchesWord, encode, packNNN_and_F000]; decide⟩

theorem Laws.Encoded.seByte (x : Nibble) (nn : Byte) : Laws.Encoded.Statement (.seByte x nn) :=
  ⟨_, rfl, by
    simp only [OpcodeRow.matchesWord, encode, packXNN_and_F000]; decide⟩

theorem Laws.Encoded.sneByte (x : Nibble) (nn : Byte) : Laws.Encoded.Statement (.sneByte x nn) :=
  ⟨_, rfl, by
    simp only [OpcodeRow.matchesWord, encode, packXNN_and_F000]; decide⟩

theorem Laws.Encoded.seReg (x : Nibble) (y : Nibble) : Laws.Encoded.Statement (.seReg x y) :=
  ⟨_, rfl, by
    simp only [OpcodeRow.matchesWord, encode, packXYN_and_F00F]; decide⟩

theorem Laws.Encoded.ldByte (x : Nibble) (nn : Byte) : Laws.Encoded.Statement (.ldByte x nn) :=
  ⟨_, rfl, by
    simp only [OpcodeRow.matchesWord, encode, packXNN_and_F000]; decide⟩

theorem Laws.Encoded.addByte (x : Nibble) (nn : Byte) : Laws.Encoded.Statement (.addByte x nn) :=
  ⟨_, rfl, by
    simp only [OpcodeRow.matchesWord, encode, packXNN_and_F000]; decide⟩

theorem Laws.Encoded.ldReg (x : Nibble) (y : Nibble) : Laws.Encoded.Statement (.ldReg x y) :=
  ⟨_, rfl, by
    simp only [OpcodeRow.matchesWord, encode, packXYN_and_F00F]; decide⟩

theorem Laws.Encoded.orReg (x : Nibble) (y : Nibble) : Laws.Encoded.Statement (.orReg x y) :=
  ⟨_, rfl, by
    simp only [OpcodeRow.matchesWord, encode, packXYN_and_F00F]; decide⟩

theorem Laws.Encoded.andReg (x : Nibble) (y : Nibble) : Laws.Encoded.Statement (.andReg x y) :=
  ⟨_, rfl, by
    simp only [OpcodeRow.matchesWord, encode, packXYN_and_F00F]; decide⟩

theorem Laws.Encoded.xorReg (x : Nibble) (y : Nibble) : Laws.Encoded.Statement (.xorReg x y) :=
  ⟨_, rfl, by
    simp only [OpcodeRow.matchesWord, encode, packXYN_and_F00F]; decide⟩

theorem Laws.Encoded.addReg (x : Nibble) (y : Nibble) : Laws.Encoded.Statement (.addReg x y) :=
  ⟨_, rfl, by
    simp only [OpcodeRow.matchesWord, encode, packXYN_and_F00F]; decide⟩

theorem Laws.Encoded.subReg (x : Nibble) (y : Nibble) : Laws.Encoded.Statement (.subReg x y) :=
  ⟨_, rfl, by
    simp only [OpcodeRow.matchesWord, encode, packXYN_and_F00F]; decide⟩

theorem Laws.Encoded.shr (x : Nibble) (y : Nibble) : Laws.Encoded.Statement (.shr x y) :=
  ⟨_, rfl, by
    simp only [OpcodeRow.matchesWord, encode, packXYN_and_F00F]; decide⟩

theorem Laws.Encoded.subn (x : Nibble) (y : Nibble) : Laws.Encoded.Statement (.subn x y) :=
  ⟨_, rfl, by
    simp only [OpcodeRow.matchesWord, encode, packXYN_and_F00F]; decide⟩

theorem Laws.Encoded.shl (x : Nibble) (y : Nibble) : Laws.Encoded.Statement (.shl x y) :=
  ⟨_, rfl, by
    simp only [OpcodeRow.matchesWord, encode, packXYN_and_F00F]; decide⟩

theorem Laws.Encoded.sneReg (x : Nibble) (y : Nibble) : Laws.Encoded.Statement (.sneReg x y) :=
  ⟨_, rfl, by
    simp only [OpcodeRow.matchesWord, encode, packXYN_and_F00F]; decide⟩

theorem Laws.Encoded.ldI (nnn : Imm12) : Laws.Encoded.Statement (.ldI nnn) :=
  ⟨_, rfl, by
    simp only [OpcodeRow.matchesWord, encode, packNNN_and_F000]; decide⟩

theorem Laws.Encoded.jpV0 (nnn : Imm12) : Laws.Encoded.Statement (.jpV0 nnn) :=
  ⟨_, rfl, by
    simp only [OpcodeRow.matchesWord, encode, packNNN_and_F000]; decide⟩

theorem Laws.Encoded.rnd (x : Nibble) (nn : Byte) : Laws.Encoded.Statement (.rnd x nn) :=
  ⟨_, rfl, by
    simp only [OpcodeRow.matchesWord, encode, packXNN_and_F000]; decide⟩

theorem Laws.Encoded.drw (x : Nibble) (y : Nibble) (n : Nibble) : Laws.Encoded.Statement (.drw x y n) :=
  ⟨_, rfl, by
    simp only [OpcodeRow.matchesWord, encode, packXYN_and_F000]; decide⟩

theorem Laws.Encoded.skp (x : Nibble) : Laws.Encoded.Statement (.skp x) :=
  ⟨_, rfl, by
    simp only [OpcodeRow.matchesWord, encode, packXNN_and_F0FF 0xE x 0x9 0xE 0x9E (by decide)]; decide⟩

theorem Laws.Encoded.sknp (x : Nibble) : Laws.Encoded.Statement (.sknp x) :=
  ⟨_, rfl, by
    simp only [OpcodeRow.matchesWord, encode, packXNN_and_F0FF 0xE x 0xA 0x1 0xA1 (by decide)]; decide⟩

theorem Laws.Encoded.ldVxDT (x : Nibble) : Laws.Encoded.Statement (.ldVxDT x) :=
  ⟨_, rfl, by
    simp only [OpcodeRow.matchesWord, encode, packXNN_and_F0FF 0xF x 0x0 0x7 0x07 (by decide)]; decide⟩

theorem Laws.Encoded.ldVxK (x : Nibble) : Laws.Encoded.Statement (.ldVxK x) :=
  ⟨_, rfl, by
    simp only [OpcodeRow.matchesWord, encode, packXNN_and_F0FF 0xF x 0x0 0xA 0x0A (by decide)]; decide⟩

theorem Laws.Encoded.ldDTVx (x : Nibble) : Laws.Encoded.Statement (.ldDTVx x) :=
  ⟨_, rfl, by
    simp only [OpcodeRow.matchesWord, encode, packXNN_and_F0FF 0xF x 0x1 0x5 0x15 (by decide)]; decide⟩

theorem Laws.Encoded.ldSTVx (x : Nibble) : Laws.Encoded.Statement (.ldSTVx x) :=
  ⟨_, rfl, by
    simp only [OpcodeRow.matchesWord, encode, packXNN_and_F0FF 0xF x 0x1 0x8 0x18 (by decide)]; decide⟩

theorem Laws.Encoded.addI (x : Nibble) : Laws.Encoded.Statement (.addI x) :=
  ⟨_, rfl, by
    simp only [OpcodeRow.matchesWord, encode, packXNN_and_F0FF 0xF x 0x1 0xE 0x1E (by decide)]; decide⟩

theorem Laws.Encoded.ldF (x : Nibble) : Laws.Encoded.Statement (.ldF x) :=
  ⟨_, rfl, by
    simp only [OpcodeRow.matchesWord, encode, packXNN_and_F0FF 0xF x 0x2 0x9 0x29 (by decide)]; decide⟩

theorem Laws.Encoded.ldB (x : Nibble) : Laws.Encoded.Statement (.ldB x) :=
  ⟨_, rfl, by
    simp only [OpcodeRow.matchesWord, encode, packXNN_and_F0FF 0xF x 0x3 0x3 0x33 (by decide)]; decide⟩

theorem Laws.Encoded.storeRegs (x : Nibble) : Laws.Encoded.Statement (.storeRegs x) :=
  ⟨_, rfl, by
    simp only [OpcodeRow.matchesWord, encode, packXNN_and_F0FF 0xF x 0x5 0x5 0x55 (by decide)]; decide⟩

theorem Laws.Encoded.loadRegs (x : Nibble) : Laws.Encoded.Statement (.loadRegs x) :=
  ⟨_, rfl, by
    simp only [OpcodeRow.matchesWord, encode, packXNN_and_F0FF 0xF x 0x6 0x5 0x65 (by decide)]; decide⟩

end Sys2Proof
end

