-- ==== Sys2Proof/Laws/Step.lean ====
section
/-! SUPPORT. What a guarded instruction, a fetch, the end of a cycle and a whole step can answer, said once. -/

namespace Sys2Proof.Machine

/-- Everything a guarded instruction can answer: the fault of its check, or its effect. -/
theorem guarded_next (i : Instr) (c : Option FaultInfo) (s e t : State) (h : guarded i c s e = .next t) :
    (∃ f, c = some f ∧ t = s.takeFault (some (encode i)) f) ∨ (c = none ∧ t = e) := by
  unfold guarded at h
  cases c with
  | some f => exact .inl ⟨f, rfl, by simpa using h.symm⟩
  | none => exact .inr ⟨rfl, by simpa using h.symm⟩

theorem guarded_none (i : Instr) (s e : State) : guarded i none s e = .next e := rfl

theorem guarded_some (i : Instr) (f : FaultInfo) (s e : State) :
    guarded i (some f) s e = .next (s.takeFault (some (encode i)) f) := rfl

theorem guarded_answers (i : Instr) (c : Option FaultInfo) (s e : State) : ∃ t, guarded i c s e = .next t := by
  cases c
  · exact ⟨_, rfl⟩
  · exact ⟨_, rfl⟩

/-- No meaning stops: every instruction answers a next state in every state. -/
theorem exec_answers (i : Instr) (s : State) : ∃ t, exec i s = .next t := by
  cases i
  case ret => exact guarded_answers _ _ _ _
  case call => exact guarded_answers _ _ _ _
  case drw => exact guarded_answers _ _ _ _
  case skp => exact guarded_answers _ _ _ _
  case sknp => exact guarded_answers _ _ _ _
  case ldB => exact guarded_answers _ _ _ _
  case storeRegs => exact guarded_answers _ _ _ _
  case loadRegs => exact guarded_answers _ _ _ _
  case ldVxK x =>
    simp only [exec, execLdVxK]
    cases s.lowestKey
    · exact ⟨_, rfl⟩
    · exact ⟨_, rfl⟩
  all_goals exact ⟨_, rfl⟩

/-- Where the two fetched bytes lie in memory, the fetch is their word. -/
theorem State.fetch_ok (s : State) (h : s.pc.toNat + 1 < 4096) :
    s.fetch = .ok (wordOfBytes (s.mem.read s.pc.toNat) (s.mem.read (s.pc.toNat + 1))) := by
  have h2 : firstFault checkRead s.pc.toNat 2 = none := by
    rw [firstFault_none_iff]
    intro k hk
    rw [checkRead_none_iff]
    omega
  simp [State.fetch, h2]

/-- Where they do not, it is the fault of the first byte that does not. -/
theorem State.fetch_error (s : State) (h : 4096 ≤ s.pc.toNat + 1) :
    s.fetch = .error ⟨.addressOutOfRange,
      some (if 4096 ≤ s.pc.toNat then s.pc.toNat else s.pc.toNat + 1)⟩ := by
  unfold State.fetch firstFault firstFault firstFault checkRead
  by_cases h1 : 4096 ≤ s.pc.toNat
  · simp [h1, show ¬ s.pc.toNat < 4096 by omega]
  · simp [h1, show s.pc.toNat < 4096 by omega, show ¬ s.pc.toNat + 1 < 4096 by omega]

theorem State.fetch_ok_bound (s : State) (w : Word) (h : s.fetch = .ok w) : s.pc.toNat + 1 < 4096 := by
  by_contra hc
  rw [State.fetch_error s (by omega)] at h
  simp at h

/-- The fetch reads nothing but pc and memory. -/
theorem State.fetch_congr (s t : State) (hp : t.pc = s.pc) (hm : ∀ a, t.mem.read a = s.mem.read a) :
    t.fetch = s.fetch := by
  simp [State.fetch, hp, hm]

theorem Fetches.unique (s : State) (i j : Instr) (hi : Fetches s i) (hj : Fetches s j) : i = j := by
  obtain ⟨w, hw, di⟩ := hi
  obtain ⟨w', hw', dj⟩ := hj
  rw [hw] at hw'
  cases hw'
  rw [di] at dj
  cases dj
  rfl

theorem decrement_toNat (t : Byte) : (decrement t).toNat = t.toNat - 1 := by
  revert t
  decide

theorem State.decay_of_running (t : State) (hf : t.fault = none) (hp : t.paused = false) :
    t.decay = { t with dt := decrement t.dt, st := decrement t.st } := by
  simp [State.decay, hf, hp]

theorem State.decay_of_paused (t : State) (hp : t.paused = true) : t.decay = t := by
  simp [State.decay, hp]

theorem State.decay_of_fault (t : State) (r : FaultRecord) (hf : t.fault = some r) : t.decay = t := by
  simp [State.decay, hf]

theorem State.decay_dt_le (t : State) : t.decay.dt.toNat ≤ t.dt.toNat := by
  rw [State.decay_dt]
  split
  · exact le_rfl
  · rw [decrement_toNat]; omega

theorem State.decay_st_le (t : State) : t.decay.st.toNat ≤ t.st.toNat := by
  rw [State.decay_st]
  split
  · exact le_rfl
  · rw [decrement_toNat]; omega

/-- Everything a step can answer with a next state: no fault was set, and the fetch faults, the word is illegal, or the
decoded instruction runs and the cycle ends. -/
theorem step_next_cases (s t : State) (h : step s = .next t) :
    s.fault = none ∧
    ((∃ f, s.fetch = .error f ∧ t = s.takeFault none f) ∨
     (∃ w e, s.fetch = .ok w ∧ decode w = .error e ∧ t = s.takeFault (some w) decodeFault) ∨
     (∃ i u, Fetches s i ∧ exec i s = .next u ∧ t = u.decay)) := by
  unfold step at h
  cases hf : s.fault with
  | some r => simp [hf] at h
  | none =>
    refine ⟨rfl, ?_⟩
    simp only [hf] at h
    cases hw : s.fetch with
    | error f =>
      simp only [hw] at h
      exact .inl ⟨f, rfl, by simpa using h.symm⟩
    | ok w =>
      simp only [hw] at h
      cases hd : decode w with
      | error e =>
        simp only [hd] at h
        exact .inr (.inl ⟨w, e, rfl, hd, by simpa using h.symm⟩)
      | ok i =>
        simp only [hd] at h
        obtain ⟨u, hu⟩ := exec_answers i s
        rw [hu] at h
        exact .inr (.inr ⟨i, u, ⟨w, hw, hd⟩, hu, by simpa [endOfCycle] using h.symm⟩)

end Sys2Proof.Machine
end

