-- ==== Sys2Proof/Machine/Assembly.lean ====
section
/-! DEFINITION. The assembler syntax (30_encoding.md R88, R89; the spec's decision D20, log 35): one line, one word. The
names carry no meaning of their own; no step reads them. -/

namespace Sys2Proof.Machine

/-- A line of assembly (R88): an instruction with all its operands written, the two short spellings that leave out a y
the instruction does not read, or a raw word. -/
inductive AsmLine where
  | ins (i : Instr)
  /-- `SHR Vx`, which encodes y = 0 -/
  | shrShort (x : Nibble)
  /-- `SHL Vx`, which encodes y = 0 -/
  | shlShort (x : Nibble)
  /-- `DW 0xhhhh` -/
  | dw (w : Word)
  deriving DecidableEq, Repr

/-- The one word the line assembles to (R89). -/
def AsmLine.word : AsmLine → Word
  | .ins i => encode i
  | .shrShort x => encode (.shr x 0)
  | .shlShort x => encode (.shl x 0)
  | .dw w => w

/-- One hexadecimal digit. -/
def hexDigit (n : Nat) : String :=
  (["0", "1", "2", "3", "4", "5", "6", "7", "8", "9", "A", "B", "C", "D", "E", "F"][n % 16]?).getD "0"

/-- A number in hexadecimal, that many digits. -/
def hexNumber : Nat → Nat → String
  | 0, _ => ""
  | k + 1, n => hexNumber k (n / 16) ++ hexDigit n

/-- `V0` to `VF` (R88). -/
def vName (x : Nibble) : String := "V" ++ hexDigit x.toNat

/-- `Vx, ` before another operand. -/
def vFirst (x : Nibble) : String := vName x ++ ", "

/-- `byte`, `addr`, `nibble`: a number after `0x` (R88). -/
def numText (digits n : Nat) : String := "0x" ++ hexNumber digits n

/-- The syntax of an instruction (R88). -/
def insText : Instr → String
  | .cls => "CLS"
  | .ret => "RET"
  | .jp nnn => "JP " ++ numText 3 nnn.toNat
  | .call nnn => "CALL " ++ numText 3 nnn.toNat
  | .seByte x nn => "SE " ++ vFirst x ++ numText 2 nn.toNat
  | .sneByte x nn => "SNE " ++ vFirst x ++ numText 2 nn.toNat
  | .seReg x y => "SE " ++ vFirst x ++ vName y
  | .ldByte x nn => "LD " ++ vFirst x ++ numText 2 nn.toNat
  | .addByte x nn => "ADD " ++ vFirst x ++ numText 2 nn.toNat
  | .ldReg x y => "LD " ++ vFirst x ++ vName y
  | .orReg x y => "OR " ++ vFirst x ++ vName y
  | .andReg x y => "AND " ++ vFirst x ++ vName y
  | .xorReg x y => "XOR " ++ vFirst x ++ vName y
  | .addReg x y => "ADD " ++ vFirst x ++ vName y
  | .subReg x y => "SUB " ++ vFirst x ++ vName y
  | .shr x y => "SHR " ++ vFirst x ++ vName y
  | .subn x y => "SUBN " ++ vFirst x ++ vName y
  | .shl x y => "SHL " ++ vFirst x ++ vName y
  | .sneReg x y => "SNE " ++ vFirst x ++ vName y
  | .ldI nnn => "LD I, " ++ numText 3 nnn.toNat
  | .jpV0 nnn => "JP V0, " ++ numText 3 nnn.toNat
  | .rnd x nn => "RND " ++ vFirst x ++ numText 2 nn.toNat
  | .drw x y n => "DRW " ++ vFirst x ++ vFirst y ++ numText 1 n.toNat
  | .skp x => "SKP " ++ vName x
  | .sknp x => "SKNP " ++ vName x
  | .ldVxDT x => "LD " ++ vFirst x ++ "DT"
  | .ldVxK x => "LD " ++ vFirst x ++ "K"
  | .ldDTVx x => "LD DT, " ++ vName x
  | .ldSTVx x => "LD ST, " ++ vName x
  | .addI x => "ADD I, " ++ vName x
  | .ldF x => "LD F, " ++ vName x
  | .ldB x => "LD B, " ++ vName x
  | .storeRegs x => "LD [I], " ++ vName x
  | .loadRegs x => "LD " ++ vFirst x ++ "[I]"

/-- The line as text (R88). -/
def AsmLine.text : AsmLine → String
  | .ins i => insText i
  | .shrShort x => "SHR " ++ vName x
  | .shlShort x => "SHL " ++ vName x
  | .dw w => "DW " ++ numText 4 w.toNat

end Sys2Proof.Machine
end

