-- ==== Sys2Proof/Tests/Slice0.lean ====
section
/-! SUPPORT. The model's own tests: decoding words written bit by bit from 30_encoding.md R84, ill-formed words and
memories, one step per instruction with the results of 95_test_vectors.md (each test names its vector), and a witness
for the hypotheses of every statement. -/

namespace Sys2Proof.Tests
open Sys2Proof Sys2Proof.Machine

/-! ### Decoding: op, x, y, n of each word as R84 writes it -/

theorem test_decode_cls : decode 0b0000000011100000 = .ok (.cls) ∧ encode (.cls) = 0b0000000011100000 := by decide
theorem test_decode_ret : decode 0b0000000011101110 = .ok (.ret) ∧ encode (.ret) = 0b0000000011101110 := by decide
theorem test_decode_jp : decode 0b0001001000110100 = .ok (.jp 0x234) ∧ encode (.jp 0x234) = 0b0001001000110100 := by decide
theorem test_decode_call : decode 0b0010111111101101 = .ok (.call 0xFED) ∧ encode (.call 0xFED) = 0b0010111111101101 := by decide
theorem test_decode_seByte : decode 0b0011000100101100 = .ok (.seByte 0x1 0x2C) ∧ encode (.seByte 0x1 0x2C) = 0b0011000100101100 := by decide
theorem test_decode_sneByte : decode 0b0100100110000001 = .ok (.sneByte 0x9 0x81) ∧ encode (.sneByte 0x9 0x81) = 0b0100100110000001 := by decide
theorem test_decode_seReg : decode 0b0101101000110000 = .ok (.seReg 0xA 0x3) ∧ encode (.seReg 0xA 0x3) = 0b0101101000110000 := by decide
theorem test_decode_ldByte : decode 0b0110101000000101 = .ok (.ldByte 0xA 0x05) ∧ encode (.ldByte 0xA 0x05) = 0b0110101000000101 := by decide
theorem test_decode_addByte : decode 0b0111000111111110 = .ok (.addByte 0x1 0xFE) ∧ encode (.addByte 0x1 0xFE) = 0b0111000111111110 := by decide
theorem test_decode_ldReg : decode 0b1000001011010000 = .ok (.ldReg 0x2 0xD) ∧ encode (.ldReg 0x2 0xD) = 0b1000001011010000 := by decide
theorem test_decode_orReg : decode 0b1000001011010001 = .ok (.orReg 0x2 0xD) ∧ encode (.orReg 0x2 0xD) = 0b1000001011010001 := by decide
theorem test_decode_andReg : decode 0b1000001011010010 = .ok (.andReg 0x2 0xD) ∧ encode (.andReg 0x2 0xD) = 0b1000001011010010 := by decide
theorem test_decode_xorReg : decode 0b1000001011010011 = .ok (.xorReg 0x2 0xD) ∧ encode (.xorReg 0x2 0xD) = 0b1000001011010011 := by decide
theorem test_decode_addReg : decode 0b1000001011010100 = .ok (.addReg 0x2 0xD) ∧ encode (.addReg 0x2 0xD) = 0b1000001011010100 := by decide
theorem test_decode_subReg : decode 0b1000001011010101 = .ok (.subReg 0x2 0xD) ∧ encode (.subReg 0x2 0xD) = 0b1000001011010101 := by decide
theorem test_decode_shr : decode 0b1000001011010110 = .ok (.shr 0x2 0xD) ∧ encode (.shr 0x2 0xD) = 0b1000001011010110 := by decide
theorem test_decode_subn : decode 0b1000001011010111 = .ok (.subn 0x2 0xD) ∧ encode (.subn 0x2 0xD) = 0b1000001011010111 := by decide
theorem test_decode_shl : decode 0b1000001011011110 = .ok (.shl 0x2 0xD) ∧ encode (.shl 0x2 0xD) = 0b1000001011011110 := by decide
theorem test_decode_sneReg : decode 0b1001000100100000 = .ok (.sneReg 0x1 0x2) ∧ encode (.sneReg 0x1 0x2) = 0b1001000100100000 := by decide
theorem test_decode_ldI : decode 0b1010000100100011 = .ok (.ldI 0x123) ∧ encode (.ldI 0x123) = 0b1010000100100011 := by decide
theorem test_decode_jpV0 : decode 0b1011001100001111 = .ok (.jpV0 0x30F) ∧ encode (.jpV0 0x30F) = 0b1011001100001111 := by decide
theorem test_decode_rnd : decode 0b1100011100001111 = .ok (.rnd 0x7 0x0F) ∧ encode (.rnd 0x7 0x0F) = 0b1100011100001111 := by decide
theorem test_decode_drw : decode 0b1101000000010101 = .ok (.drw 0x0 0x1 0x5) ∧ encode (.drw 0x0 0x1 0x5) = 0b1101000000010101 := by decide
theorem test_decode_skp : decode 0b1110001110011110 = .ok (.skp 0x3) ∧ encode (.skp 0x3) = 0b1110001110011110 := by decide
theorem test_decode_sknp : decode 0b1110001110100001 = .ok (.sknp 0x3) ∧ encode (.sknp 0x3) = 0b1110001110100001 := by decide
theorem test_decode_ldVxDT : decode 0b1111110000000111 = .ok (.ldVxDT 0xC) ∧ encode (.ldVxDT 0xC) = 0b1111110000000111 := by decide
theorem test_decode_ldVxK : decode 0b1111110000001010 = .ok (.ldVxK 0xC) ∧ encode (.ldVxK 0xC) = 0b1111110000001010 := by decide
theorem test_decode_ldDTVx : decode 0b1111110000010101 = .ok (.ldDTVx 0xC) ∧ encode (.ldDTVx 0xC) = 0b1111110000010101 := by decide
theorem test_decode_ldSTVx : decode 0b1111110000011000 = .ok (.ldSTVx 0xC) ∧ encode (.ldSTVx 0xC) = 0b1111110000011000 := by decide
theorem test_decode_addI : decode 0b1111110000011110 = .ok (.addI 0xC) ∧ encode (.addI 0xC) = 0b1111110000011110 := by decide
theorem test_decode_ldF : decode 0b1111110000101001 = .ok (.ldF 0xC) ∧ encode (.ldF 0xC) = 0b1111110000101001 := by decide
theorem test_decode_ldB : decode 0b1111110000110011 = .ok (.ldB 0xC) ∧ encode (.ldB 0xC) = 0b1111110000110011 := by decide
theorem test_decode_storeRegs : decode 0b1111110001010101 = .ok (.storeRegs 0xC) ∧ encode (.storeRegs 0xC) = 0b1111110001010101 := by decide
theorem test_decode_loadRegs : decode 0b1111110001100101 = .ok (.loadRegs 0xC) ∧ encode (.loadRegs 0xC) = 0b1111110001100101 := by decide

/-- The bytes as memory holds them, the high byte first (R80), and the table's word. -/
theorem test_decode_bytes : decodeBytes [0x12, 0x34, 0x99] = some (.ok (.jp 0x234), [0x99]) ∧
    decodeBytes [0x12] = none ∧ decodeTableWord 16 0xF265 = some (.loadRegs 2) ∧ decodeTableWord 16 0x5121 = none := by
  decide

/-- R88: lines of the programs P1, P2 and P6, and the two spellings of 8xy6. -/
theorem test_assembly : (AsmLine.ins (.ldByte 0 0)).text = "LD V0, 0x00" ∧ (AsmLine.ins (.ldByte 0 0)).word = 0x6000 ∧
    (AsmLine.ins (.loadRegs 2)).text = "LD V2, [I]" ∧ (AsmLine.ins (.jpV0 0x203)).text = "JP V0, 0x203" ∧
    (AsmLine.shrShort 1).text = "SHR V1" ∧ (AsmLine.shrShort 1).word = 0x8106 ∧
    (AsmLine.ins (.shr 1 5)).text = "SHR V1, V5" ∧ (AsmLine.ins (.shr 1 5)).word = 0x8156 := by decide

/-! ### Well-formedness: one ill-formed word per row of R86's table, each refused by name and by the opcode table -/

/-- T-E2 -/
theorem test_illegal_family0 : decode 0x0123 = .error .family0 ∧ wellFormedWord 0x0123 = false ∧
    illegalWord 0x0123 = true := by decide
/-- T-C15 -/
theorem test_illegal_family5 : decode 0x5121 = .error .family5 ∧ wellFormedWord 0x5121 = false ∧
    illegalWord 0x5121 = true := by decide
/-- T-E5 -/
theorem test_illegal_family8 : decode 0x800F = .error .family8 ∧ wellFormedWord 0x800F = false ∧
    illegalWord 0x800F = true := by decide
/-- T-C16 -/
theorem test_illegal_family9 : decode 0x9121 = .error .family9 ∧ wellFormedWord 0x9121 = false ∧
    illegalWord 0x9121 = true := by decide
/-- T-E6 -/
theorem test_illegal_familyE : decode 0xE000 = .error .familyE ∧ wellFormedWord 0xE000 = false ∧
    illegalWord 0xE000 = true := by decide
/-- T-E8 -/
theorem test_illegal_familyF : decode 0xF0FF = .error .familyF ∧ wellFormedWord 0xF0FF = false ∧
    illegalWord 0xF0FF = true := by decide

/-- No two rows of the opcode table share a word: their patterns differ on a bit both masks test (R85). -/
theorem test_rows_apart : opcodeTable.Pairwise (fun r q => r.pattern &&& q.mask ≠ q.pattern &&& r.mask) := by decide

/-- Ill-formed memories: addresses falling, an address twice, and an entry equal to the reset content. -/
theorem test_illformed_memory : Memory.wf [(0x301, 1), (0x300, 1)] = false ∧ Memory.wf [(0x300, 1), (0x300, 2)] = false ∧
    Memory.wf [(0x300, 0)] = false ∧ Memory.wf [(0x050, 0xF0)] = false ∧ Memory.wf [(0x300, 1), (0x301, 1)] = true := by
  decide

/-- R224: a display read before the first reset gives all 2048 cells. -/
theorem test_powerOnSnapshot : powerOnSnapshot.length = 2048 := by simp [powerOnSnapshot]

/-- A write keeps the canonical form, and writing the reset content removes the entry. -/
theorem test_memory_write : Memory.write [(0x300, 1), (0x302, 1)] 0x301 7 = [(0x300, 1), (0x301, 7), (0x302, 1)] ∧
    Memory.write [(0x300, 1), (0x302, 1)] 0x300 0 = [(0x302, 1)] := by decide

/-! ### One step, from reset with the stated changes and the word at 0x200 -/

/-- The state after reset with registers set. -/
def regs (l : List (Nibble × Byte)) : State := l.foldl (fun s p => s.setReg p.1 p.2) State.reset

/-- What a step at this word leaves holds `p`. -/
def after (w : Nat) (s : State) (p : State → Bool) : Bool :=
  match step (s.withFetchWord 16 w) with
  | .next t => p t
  | .fault _ => false
  | .refused _ => false

/-- A step at this word raises this fault and leaves the registers, pc, I, SP and memory (R203). -/
def faults (w : Nat) (s : State) (r : FaultRecord) : Bool :=
  after w s (fun t => t.fault == some r && t.v == s.v && t.pc == s.pc && t.i == s.i && t.sp == s.sp &&
    t.mem == (s.withFetchWord 16 w).mem)

/-- The columns of row r that are on, in the first n columns from c up. -/
def lit (t : State) (r c n : Nat) : List Nat := ((List.range n).map (c + ·)).filter (t.disp.cell r)

/-- T-A1 -/
theorem test_ldByte : after 0x6AFF (regs []) (fun t => t.reg 0xA == 0xFF && t.reg 0xF == 0 && t.pc == 0x202) = true := by decide
/-- T-A2 -/
theorem test_addByte : after 0x70FF (regs [(0, 1), (0xF, 7)]) (fun t => t.reg 0 == 0 && t.reg 0xF == 7 && t.pc == 0x202) = true := by decide
/-- T-A3 -/
theorem test_ldReg : after 0x8010 (regs [(1, 0xAB)]) (fun t => t.reg 0 == 0xAB && t.reg 1 == 0xAB) = true := by decide
/-- T-A4 -/
theorem test_orReg : after 0x8011 (regs [(0, 0xF0), (1, 0x0F), (0xF, 7)]) (fun t => t.reg 0 == 0xFF && t.reg 0xF == 7) = true := by decide
/-- T-A5 -/
theorem test_andReg : after 0x8012 (regs [(0, 0xF0), (1, 0x3C), (0xF, 7)]) (fun t => t.reg 0 == 0x30 && t.reg 0xF == 7) = true := by decide
/-- T-A6 -/
theorem test_xorReg : after 0x8013 (regs [(0, 0xFF), (1, 0x0F), (0xF, 7)]) (fun t => t.reg 0 == 0xF0 && t.reg 0xF == 7) = true := by decide
/-- T-A8 -/
theorem test_addReg_carry : after 0x8014 (regs [(0, 0xFF), (1, 1)]) (fun t => t.reg 0 == 0 && t.reg 0xF == 1) = true := by decide
/-- T-A23 -/
theorem test_addReg_vf : after 0x8F14 (regs [(0xF, 0xFF), (1, 2)]) (fun t => t.reg 0xF == 1) = true := by decide
/-- T-A12 -/
theorem test_subReg_equal : after 0x8015 (regs [(0, 5), (1, 5)]) (fun t => t.reg 0 == 0 && t.reg 0xF == 0) = true := by decide
/-- T-A26 -/
theorem test_subReg_vf : after 0x8F15 (regs [(0xF, 2), (1, 7)]) (fun t => t.reg 0xF == 0xFB) = true := by decide
/-- T-A17 -/
theorem test_shr_ignores_y : after 0x8016 (regs [(0, 4), (1, 0xFF)]) (fun t => t.reg 0 == 2 && t.reg 1 == 0xFF && t.reg 0xF == 0) = true := by decide
/-- T-A27 -/
theorem test_shr_vf : after 0x8F16 (regs [(0xF, 7)]) (fun t => t.reg 0xF == 3) = true := by decide
/-- T-A20 -/
theorem test_subn : after 0x8017 (regs [(0, 5), (1, 3)]) (fun t => t.reg 0 == 0xFE && t.reg 0xF == 0) = true := by decide
/-- T-A28 -/
theorem test_subn_vf : after 0x8F17 (regs [(0xF, 2), (1, 7)]) (fun t => t.reg 0xF == 5) = true := by decide
/-- T-A21 -/
theorem test_shl : after 0x801E (regs [(0, 0x81)]) (fun t => t.reg 0 == 2 && t.reg 0xF == 1) = true := by decide
/-- T-A29 -/
theorem test_shl_vf : after 0x8F1E (regs [(0xF, 0x81)]) (fun t => t.reg 0xF == 2) = true := by decide
/-- T-A34: whatever the byte drawn -/
theorem test_rnd_masked : ∃ t, exec (.rnd 0 0) (regs [(0, 9)]) = .next t ∧ t.reg 0 = 0 ∧ t.draws = 1 :=
  ⟨_, rfl, by simp [State.reg, State.setReg], rfl⟩
/-- T-A33: all the bits of the byte drawn -/
theorem test_rnd_all : ∃ t, exec (.rnd 0 0xFF) State.reset = .next t ∧ t.reg 0 = Config.randByte 0 :=
  ⟨_, rfl, by simp [State.reg, State.setReg, State.randNow, State.reset]; exact BitVec.and_allOnes⟩

/-- The state with I and some bytes of memory set. -/
def bytes (idx : Word) (l : List Byte) (s : State) : State := (s.setMem (s.mem.writeBytes idx.toNat l)).setI idx

/-- T-D1 -/
theorem test_cls : after 0x00E0 ((regs [(0xF, 7)]).setDisp (Display.blank.flip 31 63)) (fun t => lit t 31 60 4 == [] && t.reg 0xF == 7 && t.pc == 0x202) = true := by decide
/-- T-D2, T-D3, T-D4 -/
theorem test_drw_position :
    after 0xD011 (bytes 0x300 [0x80] (regs [(0, 0x42), (1, 0x21)])) (fun t => lit t 1 0 10 == [2] && lit t 0 0 10 == [] && lit t 2 0 10 == [] && t.reg 0xF == 0) = true ∧
    after 0xD011 (bytes 0x300 [0xFF] (regs [(0, 0x3C)])) (fun t => lit t 0 59 5 == [60, 61, 62, 63] && lit t 0 0 4 == [] && lit t 1 0 4 == [] && t.reg 0xF == 0) = true ∧
    after 0xD013 (bytes 0x300 [0x80, 0x80, 0x80] (regs [(1, 0x1E)])) (fun t => lit t 30 0 2 == [0] && lit t 31 0 2 == [0] && lit t 0 0 2 == [] && t.reg 0xF == 0) = true := by decide
/-- T-D5, T-D7, T-D8, T-D11 -/
theorem test_drw_flag_and_checks :
    after 0xD011 ((bytes 0x300 [0xC0] (regs [])).setDisp (Display.blank.flip 0 1)) (fun t => lit t 0 0 3 == [0] && t.reg 0xF == 1) = true ∧
    after 0xD010 (bytes 0x300 [0xFF] (regs [(0xF, 1)])) (fun t => lit t 0 0 8 == [] && t.reg 0xF == 0) = true ∧
    after 0xDF11 (bytes 0x300 [0x80] (regs [(0xF, 8)])) (fun t => lit t 0 0 12 == [8] && t.reg 0xF == 0) = true ∧
    faults 0xD012 (bytes 0xFFF [] (regs [(1, 0x1F), (0xF, 7)])) ⟨.addressOutOfRange, 0x200, some 0xD012, some 0x1000⟩ = true := by decide

/-- T-C1 -/
theorem test_jp : after 0x1234 (regs []) (fun t => t.pc == 0x234) = true := by decide
/-- T-C3 -/
theorem test_call : after 0x2300 (regs []) (fun t => t.stk[0] == 0x202 && t.sp == 1 && t.pc == 0x300) = true := by decide
/-- T-C5 -/
theorem test_call_full : faults 0x2300 ({ State.reset with sp := 32 }) ⟨.stackOverflow, 0x200, some 0x2300, none⟩ = true := by decide
/-- T-C6 (at 0x200) -/
theorem test_ret : after 0x00EE (State.reset.push 0x302) (fun t => t.pc == 0x302 && t.sp == 0) = true := by decide
/-- T-C7 -/
theorem test_ret_empty : faults 0x00EE (regs []) ⟨.stackUnderflow, 0x200, some 0x00EE, none⟩ = true := by decide
/-- T-C8 -/
theorem test_seByte_skips : after 0x3110 (regs [(1, 0x10)]) (fun t => t.pc == 0x204) = true := by decide
/-- T-C9 -/
theorem test_seByte_goes_on : after 0x3111 (regs [(1, 0x10)]) (fun t => t.pc == 0x202) = true := by decide
/-- T-C10 -/
theorem test_sneByte_goes_on : after 0x4110 (regs [(1, 0x10)]) (fun t => t.pc == 0x202) = true := by decide
/-- T-C11 -/
theorem test_sneByte_skips : after 0x4111 (regs [(1, 0x10)]) (fun t => t.pc == 0x204) = true := by decide
/-- T-C12 -/
theorem test_seReg : after 0x5110 (regs []) (fun t => t.pc == 0x204) = true := by decide
/-- T-C13 -/
theorem test_sneReg_skips : after 0x9120 (regs [(1, 7), (2, 8)]) (fun t => t.pc == 0x204) = true := by decide
/-- T-C14 -/
theorem test_sneReg_same : after 0x9110 (regs []) (fun t => t.pc == 0x202) = true := by decide
/-- T-C18 -/
theorem test_jpV0_not_masked : after 0xBFFF (regs [(0, 0xFF)]) (fun t => t.pc == 0x10FE) = true := by decide
/-- T-C19 -/
theorem test_skip_past_the_end : after 0x3000 ((regs []).setPc 0xFFC) (fun t => t.pc == 0x1000) = true := by decide

/-- T-K1 -/
theorem test_skp_held : after 0xE19E ((regs [(1, 5)]).keyDown 5) (fun t => t.pc == 0x204) = true := by decide
/-- T-K5 -/
theorem test_skp_index : faults 0xE19E (regs [(1, 0x10)]) ⟨.keyIndexOutOfRange, 0x200, some 0xE19E, some 0x10⟩ = true := by decide
/-- T-K3 -/
theorem test_sknp_not_held : after 0xE1A1 (regs [(1, 5)]) (fun t => t.pc == 0x204) = true := by decide
/-- T-K4 -/
theorem test_sknp_held : after 0xE1A1 ((regs [(1, 5)]).keyDown 5) (fun t => t.pc == 0x202) = true := by decide
/-- T-K6 -/
theorem test_ldVxK_waits : after 0xF40A ((regs [(4, 9)]).setDT 5) (fun t => t.pc == 0x200 && t.paused && t.reg 4 == 9 && t.dt == 5) = true := by decide
/-- T-K7 -/
theorem test_ldVxK_lowest : after 0xF40A (((regs []).keyDown 7).keyDown 3) (fun t => t.reg 4 == 3 && !t.paused && t.pc == 0x202) = true := by decide
/-- T-K9, and the decay of the cycle's end -/
theorem test_ldVxDT : after 0xF307 ((regs []).setDT 0x20) (fun t => t.reg 3 == 0x20 && t.dt == 0x1F) = true := by decide
/-- T-K10 -/
theorem test_ldDTVx : after 0xF115 (regs [(1, 5)]) (fun t => t.dt == 4) = true := by decide
/-- T-K11 -/
theorem test_ldSTVx : after 0xF218 (regs [(2, 0x0A)]) (fun t => t.st == 9) = true := by decide
/-- T-K12 -/
theorem test_ldSTVx_zero : after 0xF118 (regs []) (fun t => t.st == 0) = true := by decide

/-- T-M1 -/
theorem test_ldI : after 0xA123 (regs []) (fun t => t.i == 0x123) = true := by decide
/-- T-M3 -/
theorem test_addI_wraps : after 0xF11E (bytes 0xFFFF [] (regs [(1, 2)])) (fun t => t.i == 1) = true := by decide
/-- T-M4 -/
theorem test_ldF : after 0xF129 (regs [(1, 5)]) (fun t => t.i == 0x069) = true := by decide
/-- T-M6 -/
theorem test_ldF_not_masked : after 0xF129 (regs [(1, 0xFF)]) (fun t => t.i == 0x54B) = true := by decide
/-- T-M10 -/
theorem test_ldB : after 0xF133 (bytes 0x300 [] (regs [(1, 0xFE)])) (fun t => t.mem.readBytes 0x300 3 == [2, 5, 4] && t.i == 0x300) = true := by decide
/-- T-M13 -/
theorem test_ldB_glyph : faults 0xF033 (bytes 0x04E [] (regs [(0, 1)])) ⟨.glyphWrite, 0x200, some 0xF033, some 0x050⟩ = true := by decide
/-- T-M14 (three registers) -/
theorem test_storeRegs : after 0xF255 (bytes 0x300 [] (regs [(0, 1), (1, 2), (2, 3), (3, 4)])) (fun t => t.mem.readBytes 0x300 4 == [1, 2, 3, 0] && t.i == 0x300) = true := by decide
/-- T-M16 -/
theorem test_storeRegs_range : faults 0xF255 (bytes 0xFFE [] (regs [])) ⟨.addressOutOfRange, 0x200, some 0xF255, some 0x1000⟩ = true := by decide
/-- T-M17 -/
theorem test_loadRegs_glyph : after 0xF165 (bytes 0x050 [] (regs [])) (fun t => t.reg 0 == 0xF0 && t.reg 1 == 0x90 && t.i == 0x050) = true := by decide
/-- T-M18 -/
theorem test_loadRegs_last_byte : after 0xFF65 (bytes 0xFF0 [] ((regs []).setMem [(0xFFF, 0xAA)])) (fun t => t.reg 0xF == 0xAA && t.reg 0xE == 0) = true := by decide

/-- T-E1 -/
theorem test_illegal_word_faults : faults 0x0000 (regs []) ⟨.decodeError, 0x200, some 0x0000, none⟩ = true := by decide
/-- T-E10 and T-E11: the first missing byte of the fetch -/
theorem test_fetch_outside : ((regs []).setPc 0xFFF).fetch = .error ⟨.addressOutOfRange, some 0x1000⟩ ∧
    ((regs []).setPc 0x10FE).fetch = .error ⟨.addressOutOfRange, some 0x10FE⟩ := ⟨rfl, rfl⟩
/-- T-E12: an odd pc -/
theorem test_odd_pc : after 0x1234 ((regs []).setPc 0x201) (fun t => t.pc == 0x234) = true := by decide
/-- T-LD1 on the capacity's edge: byte 3583 is the last kept (R243) -/
theorem test_load : ((regs []).load [0x12, 0x00]).mem = [(0x200, 0x12)] ∧ (State.reset.load []).mem = [] := by decide
/-- R221: the first bytes of the snapshot are row 0 from column 0 up -/
theorem test_snapshot : ((regs []).setDisp (Display.blank.flip 0 1)).displayBuffer.take 3 = [0, 1, 0] := by decide

/-! ### Witnesses: a concrete state and operands for the hypotheses of every statement that has some, one for each
clause at the edge of its range -/

/-- The state after reset with a word at pc. -/
def placed (w : Nat) (s : State) : State := s.withFetchWord 16 w

/-- The state a run of cycles reaches, where no cycle stops. -/
def cyclesFrom (s : State) : Nat → State
  | 0 => s
  | n + 1 =>
    match step (cyclesFrom s n) with
    | .next t => t
    | .fault _ => s
    | .refused _ => s

/-- EncodeOfDecodeGivesWord: 8xyE keeps the y it does not read (R93). -/
theorem witness_encodeOfDecode : decode 0x812E = .ok (.shl 1 2) ∧ encode (.shl 1 2) = 0x812E := by decide

/-- DecodeFollowsOpcodeTable: the last row of the table, and a word of no row. -/
theorem witness_decodeFollowsTable : opcodeTable[33]? = some ⟨0xF065, 0xF0FF⟩ ∧
    (⟨0xF065, 0xF0FF⟩ : OpcodeRow).matchesWord 0xFF65 = true ∧ (Instr.loadRegs 0xF).row = 33 ∧
    (∀ r ∈ opcodeTable, r.matchesWord 0x00ED = false) := by decide

/-- IllegalWordsFault -/
theorem witness_illegalWords : (placed 0x00ED State.reset).fault = none ∧
    (placed 0x00ED State.reset).fetch = .ok 0x00ED ∧ illegalWord 0x00ED = true := ⟨rfl, rfl, rfl⟩

/-- StepRunsFetchedInstr -/
theorem witness_stepRuns : (placed 0x8124 State.reset).fault = none ∧ Fetches (placed 0x8124 State.reset) (.addReg 1 2) :=
  ⟨rfl, _, rfl, rfl⟩

/-- FetchIsBigEndian: the last word of memory. -/
theorem witness_fetchLastWord : (State.reset.setPc 0xFFE).pc.toNat + 1 < 4096 := by decide

/-- FetchOutsideMemoryFaults: the second byte missing, then the first. -/
theorem witness_fetchOutside : (State.reset.setPc 0xFFF).fault = none ∧ 4096 ≤ (State.reset.setPc 0xFFF).pc.toNat + 1 ∧
    ¬ 4096 ≤ (State.reset.setPc 0xFFF).pc.toNat ∧ 4096 ≤ (State.reset.setPc 0x1000).pc.toNat := by decide

/-- EndOfCycleDecaysTimers: running with DT = 1 and ST = 0; paused; faulted. -/
theorem witness_endOfCycle : ((State.reset.setDT 1).fault = none ∧ (State.reset.setDT 1).paused = false ∧
    (State.reset.setDT 1).decay.dt = 0 ∧ (State.reset.setDT 1).decay.st = 0) ∧
    ((State.reset.setDT 1).setPaused true).paused = true ∧
    (State.reset.takeFault none decodeFault).fault ≠ none := by decide

/-- FaultStatusStopsMachine -/
theorem witness_faultStatus : (State.reset.takeFault (some 0) decodeFault).fault = some ⟨.decodeError, 0x200, some 0, none⟩ :=
  rfl

/-- FaultingStepsArePrecise, FaultRecordsNameTheirCause: a faulting step of each code, AddressOutOfRange by the fetch
and by an access. -/
theorem witness_faultingSteps :
    (∃ t, step (placed 0x5121 State.reset) = .next t ∧ t.fault = some ⟨.decodeError, 0x200, some 0x5121, none⟩) ∧
    (∃ t, step (placed 0x2300 ({ State.reset with sp := 32 })) = .next t ∧
      t.fault = some ⟨.stackOverflow, 0x200, some 0x2300, none⟩) ∧
    (∃ t, step (placed 0x00EE State.reset) = .next t ∧ t.fault = some ⟨.stackUnderflow, 0x200, some 0x00EE, none⟩) ∧
    (∃ t, step (State.reset.setPc 0xFFF) = .next t ∧ t.fault = some ⟨.addressOutOfRange, 0xFFF, none, some 0x1000⟩) ∧
    (∃ t, step (placed 0xF265 (State.reset.setI 0xFFE)) = .next t ∧
      t.fault = some ⟨.addressOutOfRange, 0x200, some 0xF265, some 0x1000⟩) ∧
    (∃ t, step (placed 0xF055 (State.reset.setI 0x09F)) = .next t ∧
      t.fault = some ⟨.glyphWrite, 0x200, some 0xF055, some 0x09F⟩) ∧
    (∃ t, step (placed 0xE19E (regs [(1, 0x10)])) = .next t ∧
      t.fault = some ⟨.keyIndexOutOfRange, 0x200, some 0xE19E, some 0x10⟩) :=
  ⟨⟨_, rfl, rfl⟩, ⟨_, rfl, rfl⟩, ⟨_, rfl, rfl⟩, ⟨_, rfl, rfl⟩, ⟨_, rfl, rfl⟩, ⟨_, rfl, rfl⟩, ⟨_, rfl, rfl⟩⟩

/-- ResetLeavesTheseValues: the edges of the grid, of the glyph table and of memory. -/
theorem witness_resetEdges : (31 < 32 ∧ 63 < 64) ∧ (0x050 + 5 * 15 + 4 = 0x09F) ∧
    (0xFFF < 4096 ∧ ¬ (0x050 ≤ 0xFFF ∧ 0xFFF ≤ 0x09F)) ∧ ¬ (0x050 ≤ 0x04F ∧ 0x04F ≤ 0x09F) := by decide

/-- ResetIsTheWayIn: a move that is not reset, and a session with a fault recorded and no run active. -/
theorem witness_resetIsTheWayIn :
    (HostMove.run ≠ .reset ∧ (∀ k down, HostMove.run ≠ .keyEvent k down) ∧ HostMove.run ≠ .readDisplay) ∧
    (⟨some (State.reset.takeFault none decodeFault), false, false⟩ : Session).running = false :=
  ⟨⟨by decide, fun _ _ h => HostMove.noConfusion h, by decide⟩, rfl⟩

/-- LoadPlacesTheProgram: the last byte of a program of two, and the bytes before and after it. -/
theorem witness_load : (1 < 3584 ∧ ([0x12, 0x34] : List Byte)[1]? = some 0x34) ∧ 0x1FF < 0x200 ∧
    0x200 + min ([0x12, 0x34] : List Byte).length 3584 ≤ 0x202 := by decide

/-- TimersOnlyFallBetweenWrites -/
theorem witness_timersFall : (∃ t, step (placed 0x6A05 (State.reset.setDT 3)) = .next t) ∧
    ¬ ∃ x, Fetches (placed 0x6A05 (State.reset.setDT 3)) (.ldDTVx x) ∨ Fetches (placed 0x6A05 (State.reset.setDT 3)) (.ldSTVx x) :=
  ⟨⟨_, rfl⟩, fun ⟨x, h⟩ => h.elim
    (fun h => Instr.noConfusion (Fetches.unique _ (.ldByte 0xA 5) (.ldDTVx x) ⟨_, rfl, rfl⟩ h))
    (fun h => Instr.noConfusion (Fetches.unique _ (.ldByte 0xA 5) (.ldSTVx x) ⟨_, rfl, rfl⟩ h))⟩

/-- The program 6105 F115 6205 F307 from its second word on (T-K13 with one cycle between). -/
def timerStart : State := (State.reset.load [0xF1, 0x15, 0x62, 0x05, 0xF3, 0x07]).setReg 1 5

/-- DelayTimerReadBack: two cycles, the second with an instruction that leaves DT alone. -/
theorem witness_delayTimer : 0 < 2 ∧ Fetches (cyclesFrom timerStart 0) (.ldDTVx 1) ∧
    (∀ j < 2, step (cyclesFrom timerStart j) = .next (cyclesFrom timerStart (j + 1)) ∧
      (cyclesFrom timerStart (j + 1)).paused = false ∧ (cyclesFrom timerStart (j + 1)).fault = none) ∧
    (∀ j, 0 < j → j < 2 → ¬ ∃ z, Fetches (cyclesFrom timerStart j) (.ldDTVx z)) := by
  refine ⟨by decide, ⟨_, rfl, rfl⟩, ?_, ?_⟩
  · intro j hj
    match j, hj with
    | 0, _ => exact ⟨rfl, rfl, rfl⟩
    | 1, _ => exact ⟨rfl, rfl, rfl⟩
  · intro j h0 h2 ⟨z, hz⟩
    obtain rfl : j = 1 := by omega
    exact Instr.noConfusion (Fetches.unique _ (.ldByte 2 5) (.ldDTVx z) ⟨_, rfl, rfl⟩ hz)

/-- StepKeepsMemoryInv: a memory with entries, and a step that stores. -/
theorem witness_memoryInv : MemoryInv (placed 0xF155 (State.reset.setI 0x0A0)) ∧
    ∃ t, step (placed 0xF155 (State.reset.setI 0x0A0)) = .next t := ⟨by unfold MemoryInv; decide, _, rfl⟩

/-- StepKeepsPcInv: pc at its highest, and at the highest address a skip runs from. -/
theorem witness_pcInv : (PcInv (State.reset.setPc 0x10FE) ∧ ∃ t, step (State.reset.setPc 0x10FE) = .next t) ∧
    PcInv (placed 0x3000 (State.reset.setPc 0xFFE)) ∧ ∃ t, step (placed 0x3000 (State.reset.setPc 0xFFE)) = .next t :=
  ⟨⟨by unfold PcInv; decide, _, rfl⟩, by unfold PcInv; decide, _, rfl⟩

/-- StepKeepsKeyWaitInv: a paused machine. -/
theorem witness_keyWaitInv : (placed 0xF40A (State.reset.setPaused true)).paused = true ∧
    KeyWaitInv (placed 0xF40A (State.reset.setPaused true)) ∧
    ∃ t, step (placed 0xF40A (State.reset.setPaused true)) = .next t := ⟨rfl, fun _ => ⟨4, _, rfl, rfl⟩, _, rfl⟩

/-- GlyphTableIsReadOnly, OnlyNamedInstrsWrite: a step, and the ends of the table. -/
theorem witness_glyphTable : (∃ t, step (placed 0xF055 (State.reset.setI 0x09F)) = .next t) ∧
    0x050 ≤ 0x050 ∧ 0x050 ≤ 0x09F ∧ 0x09F ≤ 0x09F := ⟨⟨_, rfl⟩, by decide⟩

/-- OnlyNamedInstrsWrite: steps that change I, the stack, the display, and paused. -/
theorem witness_namedWriters :
    (∃ t, step (placed 0xA123 State.reset) = .next t ∧ t.i ≠ State.reset.i) ∧
    (∃ t, step (placed 0x2300 State.reset) = .next t ∧ t.sp ≠ State.reset.sp) ∧
    (∃ t, step (placed 0xD011 (State.reset.setI 0x050)) = .next t ∧ t.disp.cell 0 0 ≠ State.reset.disp.cell 0 0) ∧
    (∃ t, step (placed 0xF40A State.reset) = .next t ∧ t.paused ≠ State.reset.paused) :=
  ⟨⟨_, rfl, by decide⟩, ⟨_, rfl, by decide⟩, ⟨_, rfl, by decide⟩, ⟨_, rfl, by decide⟩⟩

/-- RegisterFormsFrame: a form that completes and a form that takes a fault. -/
theorem witness_registerForms : (shapeOf (.addI 1) = .register ∧ ∃ t, exec (.addI 1) State.reset = .next t ∧ t.fault = none) ∧
    shapeOf (.skp 1) = .register ∧ ∃ t, exec (.skp 1) (regs [(1, 0x10)]) = .next t ∧ t.fault ≠ none :=
  ⟨⟨rfl, _, rfl, rfl⟩, rfl, _, rfl, by decide⟩

/-- StoringFormsFrame: the last byte of memory, and one past it. -/
theorem witness_storingForms :
    (shapeOf (.storeRegs 0) = .storing ∧ ∃ t, exec (.storeRegs 0) (State.reset.setI 0xFFF) = .next t ∧ t.fault = none) ∧
    shapeOf (.storeRegs 1) = .storing ∧ ∃ t, exec (.storeRegs 1) (State.reset.setI 0xFFF) = .next t ∧ t.fault ≠ none :=
  ⟨⟨rfl, _, rfl, rfl⟩, rfl, _, rfl, by decide⟩

/-- StackFormsFrame: the last push that fits, and the entries beside the one written. -/
theorem witness_stackForms : shapeOf (.call 0x300) = .stack ∧
    (∃ t, exec (.call 0x300) ({ State.reset with sp := 31 }) = .next t ∧ t.fault = none) ∧
    (0 : Fin 32).val ≠ ({ State.reset with sp := 31 } : State).sp.val := ⟨rfl, ⟨_, rfl, rfl⟩, by decide⟩

/-- DisplayFormsFrame -/
theorem witness_displayForms : (shapeOf .cls = .display ∧ ∃ t, exec .cls State.reset = .next t) ∧
    shapeOf (.drw 0 1 5) = .display ∧ ∃ t, exec (.drw 0 1 5) (State.reset.setI 0x050) = .next t ∧ t.fault = none :=
  ⟨⟨rfl, _, rfl⟩, rfl, _, rfl, rfl⟩

/-- OnlyFlagWritersWriteVF: a carry, and Fx65 with x = 15. -/
theorem witness_flagWriters : (∃ t, exec (.addReg 1 2) (regs [(1, 0xFF), (2, 1)]) = .next t ∧
    t.reg 0xF ≠ (regs [(1, 0xFF), (2, 1)]).reg 0xF) ∧
    ∃ t, exec (.loadRegs 0xF) (State.reset.setI 0x050) = .next t ∧ t.reg 0xF ≠ (State.reset.setI 0x050).reg 0xF :=
  ⟨⟨_, rfl, by decide⟩, _, rfl, by decide⟩

/-- LogicOperations, RandomByteIsMasked: the last bit. AdditionSetsCarry, SubtractionSetsStrictFlag,
ShiftsPutTheBitInVF: the last register that is not VF. -/
theorem witness_registers : 7 < 8 ∧ (0xE : Nibble) ≠ 0xF := by decide

/-- ClearTurnsEveryCellOff, DrawPaintsTheClippedSprite, SnapshotIsRowMajor: the last cell of the grid. -/
theorem witness_lastCell : 31 < 32 ∧ 63 < 64 ∧ 31 * 64 + 63 = 2047 := by decide

/-- DrawPaintsTheClippedSprite: the tallest sprite at the last address that holds it, over no lit cell and over one. -/
theorem witness_draw : (∀ k < (0xF : Nibble).toNat, Readable (State.reset.setI 0xFF1) k) ∧
    (∀ k < (1 : Nibble).toNat, Readable (State.reset.setI 0x050) k) ∧
    (∀ r < 32, ∀ c < 64, spritePixel (State.reset.setI 0xFF1) 0 1 1 r c = true →
      (State.reset.setI 0xFF1).disp.cell r c = false) ∧
    ∃ r < 32, ∃ c < 64, spritePixel ((State.reset.setI 0x050).setDisp (Display.blank.flip 0 0)) 0 1 1 r c = true ∧
      ((State.reset.setI 0x050).setDisp (Display.blank.flip 0 0)).disp.cell r c = true :=
  ⟨by unfold Readable; decide, by unfold Readable; decide,
    fun r _ c _ _ => by simp [Display.cell, State.setI, State.reset], 0, by decide, 0, by decide, by decide, by decide⟩

/-- DrawingTwiceRestores: glyph 0 drawn at the top left of the blank display, twice. -/
theorem witness_drawingTwice : ∃ t u w, (∀ k < (5 : Nibble).toNat, Readable (State.reset.setI 0x050) k) ∧
    exec (.drw 0 1 5) (State.reset.setI 0x050) = .next t ∧ u.disp = t.disp ∧ u.i = (State.reset.setI 0x050).i ∧
    (∀ a, u.mem.read a = (State.reset.setI 0x050).mem.read a) ∧ u.reg 0 = (State.reset.setI 0x050).reg 0 ∧
    u.reg 1 = (State.reset.setI 0x050).reg 1 ∧ exec (.drw 0 1 5) u = .next w ∧
    (∀ r < 32, ∀ c < 64, spritePixel (State.reset.setI 0x050) 0 1 5 r c = true →
      (State.reset.setI 0x050).disp.cell r c = false) ∧
    ∃ r < 32, ∃ c < 64, spritePixel (State.reset.setI 0x050) 0 1 5 r c = true :=
  ⟨_, (State.reset.setI 0x050).setDisp (drawSprite (State.reset.setI 0x050) 0 1 5).disp, _, by unfold Readable; decide,
    rfl, rfl, rfl, fun _ => rfl, rfl, rfl, rfl, fun r _ c _ _ => by simp [Display.cell, State.setI, State.reset],
    0, by decide, 0, by decide, by decide⟩

/-- CallPushesOrOverflows: the last entry, and a full stack. -/
theorem witness_call : ({ State.reset with sp := 31 } : State).sp.val < 32 ∧ ({ State.reset with sp := 32 } : State).sp.val = 32 ∧
    (0 : Fin 32).val ≠ ({ State.reset with sp := 31 } : State).sp.val := by decide

/-- ReturnPopsOrUnderflows: one entry, and none. -/
theorem witness_ret : 0 < (State.reset.push 0x302).sp.val ∧ State.reset.sp.val = 0 := by decide

/-- CallThenReturnComesBack: a call into the last entry, a subroutine that changed a register, and the return. -/
theorem witness_callReturn : ∃ t w, ({ State.reset with sp := 31 } : State).sp.val < 32 ∧
    exec (.call 0x300) ({ State.reset with sp := 31 }) = .next t ∧ (t.setReg 3 9).sp = t.sp ∧
    (∀ j : Fin 32, j.val < t.sp.val → (t.setReg 3 9).stk[j] = t.stk[j]) ∧ exec .ret (t.setReg 3 9) = .next w :=
  ⟨_, _, by decide, rfl, rfl, fun _ _ => rfl, rfl⟩

/-- KeySkips: the last key, and the first value that names none. -/
theorem witness_keySkips : ((regs [(1, 0xF)]).reg 1).toNat = (0xF : Nibble).toNat ∧ 15 < ((regs [(1, 0x10)]).reg 1).toNat := by
  decide

/-- KeyWaitTakesLowestKey: the last key alone held, and no key held. -/
theorem witness_keyWait : ((State.reset.keyDown 0xF).keyHeld 0xF = true ∧
    ∀ j : Nibble, j.toNat < (0xF : Nibble).toNat → (State.reset.keyDown 0xF).keyHeld j = false) ∧
    ∀ k : Nibble, State.reset.keyHeld k = false := by decide

/-- KeyWaitHoldsUntilKeyDown -/
theorem witness_keyWaitHolds : (placed 0xF40A State.reset).fault = none ∧ Fetches (placed 0xF40A State.reset) (.ldVxK 4) ∧
    ∀ k : Nibble, (placed 0xF40A State.reset).keyHeld k = false := ⟨rfl, ⟨_, rfl, rfl⟩, by decide⟩

/-- DecimalDigitsAreStored: the last three bytes of memory. RegistersAreStored: all sixteen, just above the glyphs. -/
theorem witness_writable : (∀ k < 3, Writable (State.reset.setI 0xFFD) k) ∧
    ∀ k ≤ (0xF : Nibble).toNat, Writable (State.reset.setI 0x0A0) k := by unfold Writable; decide

/-- RegistersAreLoaded: all sixteen from the last bytes of memory; ReadsTrapAtFirstBadByte: one byte further. -/
theorem witness_readable : (∀ k ≤ (0xF : Nibble).toNat, Readable (State.reset.setI 0xFF0) k) ∧
    (∀ j < 15, Readable (State.reset.setI 0xFF1) j) ∧ ¬ Readable (State.reset.setI 0xFF1) 15 ∧
    (15 ≤ (0xF : Nibble).toNat) ∧ (∀ j < 14, Readable (State.reset.setI 0xFF2) j) ∧ ¬ Readable (State.reset.setI 0xFF2) 14 ∧
    14 < (0xF : Nibble).toNat := by unfold Readable; decide

/-- StoresTrapAtFirstBadByte: the first glyph byte, and the end of memory. -/
theorem witness_storesTrap : (shapeOf (.ldB 0) = .storing ∧ 2 < storeWidth (.ldB 0) ∧
    (∀ j < 2, Writable (State.reset.setI 0x04E) j) ∧ ¬ Writable (State.reset.setI 0x04E) 2) ∧
    shapeOf (.storeRegs 1) = .storing ∧ 1 < storeWidth (.storeRegs 1) ∧
    (∀ j < 1, Writable (State.reset.setI 0xFFF) j) ∧ ¬ Writable (State.reset.setI 0xFFF) 1 := by unfold Writable; decide

/-- StoreThenLoadRestores -/
theorem witness_storeThenLoad : ∃ t w, (∀ k ≤ (1 : Nibble).toNat, Writable ((regs [(1, 7)]).setI 0x300) k) ∧
    exec (.storeRegs 1) ((regs [(1, 7)]).setI 0x300) = .next t ∧ (t.setReg 1 0).i = ((regs [(1, 7)]).setI 0x300).i ∧
    (t.setReg 1 0).mem = t.mem ∧ exec (.loadRegs 1) (t.setReg 1 0) = .next w :=
  ⟨_, _, by unfold Writable; decide, rfl, rfl, rfl, rfl⟩

/-- StoredCodeIsFetched -/
theorem witness_storedCode : ∃ t, 1 ≤ (1 : Nibble).toNat ∧ (∀ k ≤ (1 : Nibble).toNat, Writable (State.reset.setI 0x202) k) ∧
    (State.reset.setI 0x202).i = (State.reset.setI 0x202).pc + 2 ∧ exec (.storeRegs 1) (State.reset.setI 0x202) = .next t :=
  ⟨_, by decide, by unfold Writable; decide, rfl, rfl⟩

/-- CancelledRunResumes: a run cancelled after two cycles of a jump to itself. -/
theorem witness_cancelledRun : ∃ t, run 2 (placed 0x1200 State.reset) = .next (t, .cancelled) := ⟨_, rfl⟩

/-- KeyEventsWriteOneLatch: in the middle of a run. -/
theorem witness_keyEvents : (⟨some State.reset, true, false⟩ : Session).core = some State.reset ∧ (0xE : Nibble) ≠ 0xF :=
  ⟨rfl, by decide⟩

end Sys2Proof.Tests
end

section
/-! The state after reset (10_state.md R39): what the accessors of the state read there, then the obligation. -/

namespace Sys2Proof.Machine

@[simp] theorem State.reset_reg (r : Nibble) : State.reset.reg r = 0 := by
  simp [State.reg, State.reset]

@[simp] theorem State.reset_keyHeld (k : Nibble) : State.reset.keyHeld k = false := by
  simp [State.keyHeld, State.reset]

theorem State.reset_disp : State.reset.disp = Display.blank := rfl

@[simp] theorem Display.cell_blank (r c : Nat) : Display.blank.cell r c = false := by
  simp [Display.cell, Display.blank]

/-- Memory lists nothing after reset, so every address reads as its background. -/
theorem State.reset_mem_read (a : Nat) : State.reset.mem.read a = Memory.background a := rfl

/-- Byte `k` of glyph `g` stands at offset `5 * g + k` of the table (R52), for any GLYPHS. -/
theorem glyphByte_mul_add (g k : Nat) (hk : k < 5) : Config.glyphByte (5 * g + k) = Config.glyph g k := by
  have hdiv : (5 * g + k) / 5 = g := by omega
  have hmod : (5 * g + k) % 5 = k := by omega
  simp only [Config.glyphByte, hdiv, hmod]

/-- Inside the glyph table the background is the glyph byte of that place (R51, R52). -/
theorem Memory.background_glyph (g k : Nat) (hg : g < 16) (hk : k < 5) :
    Memory.background (0x050 + 5 * g + k) = Config.glyph g k := by
  have hin : inGlyphTable (0x050 + 5 * g + k) = true := (inGlyphTable_iff _).2 (by omega)
  have hoff : 0x050 + 5 * g + k - 0x050 = 5 * g + k := by omega
  simp only [Memory.background, hin, if_true, hoff, glyphByte_mul_add g k hk]

/-- Outside the glyph table the background is 0. -/
theorem Memory.background_outside (a : Nat) (h : ¬ (0x050 ≤ a ∧ a ≤ 0x09F)) : Memory.background a = 0 :=
  if_neg (mt (inGlyphTable_iff a).1 h)

/-- Settles O13: register by register, latch by latch, cell by cell, and memory on both sides of the glyph table's
edges; pc, I, SP, paused and the fault status are fields of the reset state as it is written. -/
theorem resetLeavesTheseValues : Obligations.ResetLeavesTheseValues := by
  refine ⟨rfl, rfl, State.reset_reg, rfl, State.reset_keyHeld, rfl, ?display, ?glyphs, ?rest, rfl⟩
  case display =>
    intro r _ c _
    rw [State.reset_disp, Display.cell_blank]
  case glyphs =>
    intro g hg k hk
    rw [State.reset_mem_read, Memory.background_glyph g k hg hk]
  case rest =>
    intro a _ ha
    rw [State.reset_mem_read, Memory.background_outside a ha]

end Sys2Proof.Machine
end

section
/-! Encoding after decoding (30_encoding.md R81, R83, R84): a word is the packing of its own fields, so an encoder that
packs the fields the decoder took, under the leading nibble and sub-opcode the decoder tested, gives the word back. -/

namespace Sys2Proof

variable {w : Word} {i : Instr} {op n : Nibble} {nn : Byte}

/-- Format NNN, its leading nibble tested. -/
theorem packNNN_of_opField (hop : (opField w).toNat = op.toNat) : packNNN op (nnnField w) = w := by
  rw [← BitVec.eq_of_toNat_eq hop, packNNN_fields]

/-- Format XNN, its leading nibble tested. -/
theorem packXNN_of_opField (hop : (opField w).toNat = op.toNat) : packXNN op (xField w) (nnField w) = w := by
  rw [← BitVec.eq_of_toNat_eq hop, packXNN_fields]

/-- Format XS, its leading nibble and its sub-opcode nn tested. -/
theorem packXNN_of_opField_nnField (hop : (opField w).toNat = op.toNat) (hnn : nnField w = nn) :
    packXNN op (xField w) nn = w := by
  rw [← hnn, packXNN_of_opField hop]

/-- Format XYN, its leading nibble tested. -/
theorem packXYN_of_opField (hop : (opField w).toNat = op.toNat) : packXYN op (xField w) (yField w) (nField w) = w := by
  rw [← BitVec.eq_of_toNat_eq hop, packXYN_fields]

/-- Format XYS, its leading nibble and its sub-opcode n tested; y is kept whether or not the instruction reads it (R93). -/
theorem packXYN_of_opField_nField (hop : (opField w).toNat = op.toNat) (hn : (nField w).toNat = n.toNat) :
    packXYN op (xField w) (yField w) n = w := by
  rw [← BitVec.eq_of_toNat_eq hn, packXYN_of_opField hop]

theorem encode_of_decodeFamily0 (h : decodeFamily0 w = .ok i) : encode i = w := by
  unfold decodeFamily0 at h
  split at h
  case isTrue hw => cases h; exact hw.symm
  case isFalse =>
    split at h
    case isTrue hw => cases h; exact hw.symm
    case isFalse => cases h

theorem encode_of_decodeFamily8 (hop : (opField w).toNat = 0x8) (h : decodeFamily8 w = .ok i) : encode i = w := by
  unfold decodeFamily8 at h
  split at h <;> cases h
  all_goals next hn => exact packXYN_of_opField_nField hop hn

theorem encode_of_decodeFamilyE (hop : (opField w).toNat = 0xE) (h : decodeFamilyE w = .ok i) : encode i = w := by
  unfold decodeFamilyE at h
  split_ifs at h with h9E hA1 <;> cases h
  · exact packXNN_of_opField_nnField hop h9E
  · exact packXNN_of_opField_nnField hop hA1

theorem encode_of_decodeFamilyF (hop : (opField w).toNat = 0xF) (h : decodeFamilyF w = .ok i) : encode i = w := by
  unfold decodeFamilyF at h
  split_ifs at h <;> cases h
  all_goals exact packXNN_of_opField_nnField hop ‹_›

/-- By the leading nibble, then by the format of the row. -/
theorem encode_of_decode (h : decode w = .ok i) : encode i = w := by
  unfold decode at h
  split at h
  case h_1 => exact encode_of_decodeFamily0 h
  case h_2 hop | h_3 hop | h_11 hop | h_12 hop => cases h; exact packNNN_of_opField hop
  case h_4 hop | h_5 hop | h_7 hop | h_8 hop | h_13 hop => cases h; exact packXNN_of_opField hop
  case h_6 hop | h_10 hop =>
    split at h
    case isTrue hn => cases h; exact packXYN_of_opField_nField hop (congrArg BitVec.toNat hn)
    case isFalse => cases h
  case h_9 hop => exact encode_of_decodeFamily8 hop h
  case h_14 hop => cases h; exact packXYN_of_opField hop
  case h_15 hop => exact encode_of_decodeFamilyE hop h
  case h_16 =>
    have hop : (opField w).toNat = 0xF := by
      have := (opField w).isLt
      grind
    exact encode_of_decodeFamilyF hop h

/-- Settles O2: every instruction form packs the fields its word was cut into. -/
theorem encodeOfDecodeGivesWord : Obligations.EncodeOfDecodeGivesWord :=
  fun _ _ h => encode_of_decode h

end Sys2Proof
end

section
/-! Arithmetic and logic (40_alu.md): the frame of a register write, the answer of each instruction with its frame, the
flags as numbers, then the obligations. -/

namespace Sys2Proof.Machine

/-! ### Frames -/

section Frames

variable {i : Instr} {s t : State} {x y : Nibble} {b f : Byte}

/-- Every instruction names pc among the parts it writes (R23). -/
theorem writesPart_pc (i : Instr) : writesPart i .pc = true := by
  cases i <;> rfl

/-- The pc of the fetch lies within the frame of every instruction (R90). -/
theorem frame_advancePc (i : Instr) (s : State) : Frame i s s.advancePc := by
  refine ⟨?parts, fun _ _ => rfl, fun _ _ => rfl⟩
  case parts =>
    intro p hp
    cases p
    case pc => exact absurd ((writesPart_pc i).symm.trans hp) (by decide)
    all_goals rfl

/-- A write to a register the instruction names stays within its frame. -/
theorem Frame.setReg (h : Frame i s t) (hx : writesReg i x = true) : Frame i s (t.setReg x b) := by
  obtain ⟨hparts, hregs, hmem⟩ := h
  refine ⟨?parts, ?regs, hmem⟩
  case parts =>
    intro p hp
    have hsame := hparts p hp
    cases p <;> exact hsame
  case regs =>
    intro r hr
    have hne : r ≠ x := by
      rintro rfl
      simp [hx] at hr
    rw [State.reg_setReg_ne _ _ _ _ hne, hregs r hr]

/-- An instruction whose effect is one register write. -/
theorem completes_setReg (he : exec i s = .next (s.advancePc.setReg x b)) (hx : writesReg i x = true) :
    Completes i s (s.advancePc.setReg x b) :=
  ⟨he, (frame_advancePc i s).setReg hx⟩

/-- An instruction whose effect is two register writes, in this order (R12). -/
theorem completes_setReg_setReg (he : exec i s = .next ((s.advancePc.setReg x b).setReg y f))
    (hx : writesReg i x = true) (hy : writesReg i y = true) :
    Completes i s ((s.advancePc.setReg x b).setReg y f) :=
  ⟨he, ((frame_advancePc i s).setReg hx).setReg hy⟩

end Frames

/-! ### What each instruction answers -/

theorem ldByte_completes (s : State) (x : Nibble) (nn : Byte) :
    Completes (.ldByte x nn) s (s.advancePc.setReg x nn) :=
  completes_setReg rfl (by simp [writesReg])

theorem addByte_completes (s : State) (x : Nibble) (nn : Byte) :
    Completes (.addByte x nn) s (s.advancePc.setReg x (s.reg x + nn)) :=
  completes_setReg rfl (by simp [writesReg])

theorem ldReg_completes (s : State) (x y : Nibble) :
    Completes (.ldReg x y) s (s.advancePc.setReg x (s.reg y)) :=
  completes_setReg rfl (by simp [writesReg])

theorem orReg_completes (s : State) (x y : Nibble) :
    Completes (.orReg x y) s (s.advancePc.setReg x (s.reg x ||| s.reg y)) :=
  completes_setReg rfl (by simp [writesReg])

theorem andReg_completes (s : State) (x y : Nibble) :
    Completes (.andReg x y) s (s.advancePc.setReg x (s.reg x &&& s.reg y)) :=
  completes_setReg rfl (by simp [writesReg])

theorem xorReg_completes (s : State) (x y : Nibble) :
    Completes (.xorReg x y) s (s.advancePc.setReg x (s.reg x ^^^ s.reg y)) :=
  completes_setReg rfl (by simp [writesReg])

theorem addReg_completes (s : State) (x y : Nibble) :
    Completes (.addReg x y) s
      ((s.advancePc.setReg x (s.reg x + s.reg y)).setReg 0xF (flagByte (carryFlag (s.reg x) (s.reg y)))) :=
  completes_setReg_setReg rfl (by simp [writesReg]) (by simp [writesReg])

theorem subReg_completes (s : State) (x y : Nibble) :
    Completes (.subReg x y) s
      ((s.advancePc.setReg 0xF (flagByte (greaterFlag (s.reg x) (s.reg y)))).setReg x (s.reg x - s.reg y)) :=
  completes_setReg_setReg rfl (by simp [writesReg]) (by simp [writesReg])

theorem subn_completes (s : State) (x y : Nibble) :
    Completes (.subn x y) s
      ((s.advancePc.setReg 0xF (flagByte (greaterFlag (s.reg y) (s.reg x)))).setReg x (s.reg y - s.reg x)) :=
  completes_setReg_setReg rfl (by simp [writesReg]) (by simp [writesReg])

/-! ### Words, results and flags as numbers -/

/-- The words of the 8 family (R83, R84), the sub-opcode beside the leading nibble. -/
theorem packXYN_family8_toNat (x y n : Nibble) :
    (packXYN 0x8 x y n).toNat = 0x8000 + n.toNat + x.toNat * 256 + y.toNat * 16 := by
  calc (packXYN 0x8 x y n).toNat
      = 0x8000 + x.toNat * 256 + y.toNat * 16 + n.toNat := packXYN_toNat 0x8 x y n
    _ = 0x8000 + n.toNat + x.toNat * 256 + y.toNat * 16 := by omega

/-- A byte difference, the minuend lifted by 256 before the subtraction (R102). -/
theorem byte_sub_toNat (a c : Byte) : (a - c).toNat = (a.toNat + 256 - c.toNat) % 256 := by
  have hc := c.isLt
  rw [BitVec.toNat_sub]
  omega

theorem flagByte_toNat (c : Bool) : (flagByte c).toNat = if c then 1 else 0 := by
  cases c <;> rfl

theorem carryFlag_toNat (a c : Byte) :
    (flagByte (carryFlag a c)).toNat = if 255 < a.toNat + c.toNat then 1 else 0 := by
  simp [flagByte_toNat, carryFlag]

theorem greaterFlag_toNat (a c : Byte) :
    (flagByte (greaterFlag a c)).toNat = if c.toNat < a.toNat then 1 else 0 := by
  simp [flagByte_toNat, greaterFlag]

/-! ### The obligations -/

/-- Settles O31: the carry is written after the sum, which x ≠ 15 keeps apart from VF. -/
theorem additionSetsCarry : Obligations.AdditionSetsCarry := by
  intro s x y nn
  refine ⟨⟨_, addByte_completes s x nn, rfl, ?sum, ?noFlag⟩,
    fun hx => ⟨_, addReg_completes s x y, rfl, ?regSum, ?carry⟩⟩
  case sum => rw [State.reg_setReg_self, BitVec.toNat_add]
  case noFlag =>
    intro hx
    rw [State.reg_setReg_ne _ _ _ _ hx.symm, State.advancePc_reg]
  case regSum => rw [State.reg_setReg_ne _ _ _ _ hx, State.reg_setReg_self, BitVec.toNat_add]
  case carry => rw [State.reg_setReg_self, carryFlag_toNat]

/-- Settles O32: the flag is computed from the operands before either write, and x ≠ 15 keeps the difference from
overwriting it. -/
theorem subtractionSetsStrictFlag : Obligations.SubtractionSetsStrictFlag := by
  intro s x y hx
  refine ⟨⟨_, subReg_completes s x y, rfl, ?sub, ?subFlag⟩, ⟨_, subn_completes s x y, rfl, ?subn, ?subnFlag⟩⟩
  case sub | subn => rw [State.reg_setReg_self, byte_sub_toNat]
  case subFlag | subnFlag => rw [State.reg_setReg_ne _ _ _ _ hx.symm, State.reg_setReg_self, greaterFlag_toNat]

/-- Settles O29: each is one register write after the fetch, x = 15 as any other register. -/
theorem loadsAndAddImmediate : Obligations.LoadsAndAddImmediate := by
  intro s x y nn
  refine ⟨⟨packXNN_toNat 0x6 x nn, _, ldByte_completes s x nn, State.reg_setReg_self _ _ _, rfl⟩,
    ⟨packXNN_toNat 0x7 x nn, _, addByte_completes s x nn, ?sum, rfl⟩,
    ⟨packXYN_family8_toNat x y 0, _, ldReg_completes s x y, State.reg_setReg_self _ _ _, rfl⟩⟩
  case sum => rw [State.reg_setReg_self, BitVec.toNat_add]

/-- Settles O30: the bit of a bitwise operation is the operation on the bits, at every place. -/
theorem logicOperations : Obligations.LogicOperations := by
  intro s x y
  refine ⟨⟨packXYN_family8_toNat x y 1, _, orReg_completes s x y, rfl, ?or⟩,
    ⟨packXYN_family8_toNat x y 2, _, andReg_completes s x y, rfl, ?and⟩,
    ⟨packXYN_family8_toNat x y 3, _, xorReg_completes s x y, rfl, ?xor⟩⟩ <;> intro k _
  case or => rw [State.reg_setReg_self, BitVec.getLsbD_or]
  case and => rw [State.reg_setReg_self, BitVec.getLsbD_and]
  case xor => rw [State.reg_setReg_self, BitVec.getLsbD_xor]

end Sys2Proof.Machine
end

section
/-! Display (41_display.md): the frame of a display write, the answer of 00E0, then the obligation. -/

namespace Sys2Proof.Machine

/-- A new display stays within the frame of an instruction that names the display (R31). -/
theorem Frame.setDisp {i : Instr} {s t : State} (h : Frame i s t) (d : Display) (hd : writesPart i .disp = true) :
    Frame i s (t.setDisp d) := by
  obtain ⟨hparts, hregs, hmem⟩ := h
  refine ⟨?parts, hregs, hmem⟩
  case parts =>
    intro p hp
    cases p
    case disp => exact absurd (hd.symm.trans hp) (by decide)
    all_goals exact hparts _ hp

/-- 00E0 is one display write after the fetch, and can neither fault nor be refused. -/
theorem cls_completes (s : State) : Completes .cls s (s.advancePc.setDisp Display.blank) :=
  ⟨rfl, (frame_advancePc .cls s).setDisp Display.blank rfl⟩

/-- Settles O36: the display written is the blank one, which reads off at every cell. -/
theorem clearTurnsEveryCellOff : Obligations.ClearTurnsEveryCellOff := by
  refine ⟨rfl, fun s => ⟨_, cls_completes s, rfl, ?cells⟩⟩
  case cells =>
    intro r _ c _
    rw [State.setDisp_disp, Display.cell_blank]

end Sys2Proof.Machine
end

section
/-! Control flow (42_control_flow.md): the frame of a conditional skip, the pc after it, the answer of the two byte
skips, then the obligation. -/

namespace Sys2Proof.Machine

/-- A skip taken or not moves at most pc, which every instruction names (R23). -/
theorem Frame.skipIf {i : Instr} {s t : State} (h : Frame i s t) (c : Bool) : Frame i s (t.skipIf c) := by
  cases c
  case false => exact h
  case true =>
    obtain ⟨hparts, hregs, hmem⟩ := h
    refine ⟨?parts, hregs, hmem⟩
    case parts =>
      intro p hp
      cases p
      case pc => exact absurd ((writesPart_pc i).symm.trans hp) (by decide)
      all_goals exact hparts _ hp

/-- The two advances of a skip, counted from the instruction's own address (R90, R140). -/
theorem advancePc_skipIf_pc (s : State) (c : Bool) :
    (s.advancePc.skipIf c).pc = if c then s.pc + 4 else s.pc + 2 := by
  cases c
  case false => rfl
  case true => exact BitVec.add_assoc s.pc 2 2

theorem seByte_completes (s : State) (x : Nibble) (nn : Byte) :
    Completes (.seByte x nn) s (s.advancePc.skipIf (s.reg x == nn)) :=
  ⟨rfl, (frame_advancePc _ s).skipIf _⟩

theorem sneByte_completes (s : State) (x : Nibble) (nn : Byte) :
    Completes (.sneByte x nn) s (s.advancePc.skipIf (s.reg x != nn)) :=
  ⟨rfl, (frame_advancePc _ s).skipIf _⟩

/-- Settles O43: both are one skip after the fetch, under opposite conditions on the same two bytes. -/
theorem byteSkips : Obligations.ByteSkips := by
  intro s x nn
  refine ⟨⟨packXNN_toNat 0x3 x nn, _, seByte_completes s x nn, ?equal⟩,
    ⟨packXNN_toNat 0x4 x nn, _, sneByte_completes s x nn, ?different⟩⟩
  case equal => simp only [advancePc_skipIf_pc, beq_iff_eq]
  case different => simp only [advancePc_skipIf_pc, bne_iff_ne, ite_not]

end Sys2Proof.Machine
end

section
/-! Decoding (30_encoding.md R81 to R86): the decoder takes a packed word apart again, it follows the rows of the opcode
table, and the words it rejects are those of the table of illegal words. -/

namespace Sys2Proof

/-! ### Decoding an encoded instruction -/

/-- The decoder dispatches on the leading nibble and the sub-opcode the encoder packed, and finds the fields it packed
beside them. -/
theorem decode_encode (i : Instr) : decode (encode i) = .ok i := by
  cases i
  case cls | ret => rfl
  case jp | call | seByte | sneByte | seReg | ldByte | addByte | sneReg | ldI | jpV0 | rnd | drw =>
    simp [encode, decode]
  case ldReg | orReg | andReg | xorReg | addReg | subReg | shr | subn | shl =>
    simp [encode, decode, decodeFamily8]
  case skp | sknp => simp [encode, decode, decodeFamilyE]
  all_goals simp [encode, decode, decodeFamilyF]

/-- Settles O1: by the format of the instruction's word. -/
theorem decodeOfEncodeGivesInstr : Obligations.DecodeOfEncodeGivesInstr := decode_encode

/-- Settles O5: nineteen closed words, decoded by evaluation. -/
theorem specWordsDecode : Obligations.SpecWordsDecode := by
  unfold Obligations.SpecWordsDecode
  decide

/-! ### The rows of the opcode table -/

variable {w m p : Word} {i : Instr} {k : Nat} {r : OpcodeRow}

/-- What a masked word says of the fields the decoder tests. -/
theorem fields_of_and_eq (h : w &&& m = p) :
    opField w &&& opField m = opField p ∧ nField w &&& nField m = nField p ∧ nnField w &&& nnField m = nnField p := by
  subst h
  exact ⟨BitVec.extractLsb'_and.symm, BitVec.extractLsb'_and.symm, BitVec.extractLsb'_and.symm⟩

theorem nibble_and_ones (a : Nibble) : a &&& 15#4 = a := BitVec.and_allOnes
theorem byte_and_ones (a : Byte) : a &&& 255#8 = a := BitVec.and_allOnes
theorem word_and_ones (a : Word) : a &&& 0xFFFF = a := BitVec.and_allOnes

/-- A word that matches a row decodes to an instruction of that row: 00E0 and 00EE are their rows' only words, and the
mask of every other row tests the leading nibble and the sub-opcode the decoder dispatches on. -/
theorem decode_of_matchesWord (hr : opcodeTable[k]? = some r) (hw : r.matchesWord w = true) :
    ∃ i, decode w = .ok i ∧ i.row = k := by
  have hk : k < 34 := (List.getElem?_eq_some_iff.1 hr).1
  have hw := beq_iff_eq.1 hw
  obtain ⟨hop, hn, hnn⟩ := fields_of_and_eq hw
  obtain hlow | hhigh : k < 2 ∨ 2 ≤ k := lt_or_ge k 2
  · interval_cases k <;> cases hr
    all_goals
      rw [word_and_ones] at hw
      subst hw
      exact ⟨_, rfl, rfl⟩
  · interval_cases k <;> cases hr
    all_goals
      simp [opField, nField, nnField, nibble_and_ones, byte_and_ones] at hop hn hnn
      simp [decode, decodeFamily8, decodeFamilyE, decodeFamilyF, opField, nField, nnField, hop, hn, hnn, Instr.row]

/-- The word of an instruction matches the instruction's row (R84). -/
theorem encode_matches_row : ∀ i, Laws.Encoded.Statement i
  | .cls => Laws.Encoded.cls
  | .ret => Laws.Encoded.ret
  | .jp nnn => Laws.Encoded.jp nnn
  | .call nnn => Laws.Encoded.call nnn
  | .seByte x nn => Laws.Encoded.seByte x nn
  | .sneByte x nn => Laws.Encoded.sneByte x nn
  | .seReg x y => Laws.Encoded.seReg x y
  | .ldByte x nn => Laws.Encoded.ldByte x nn
  | .addByte x nn => Laws.Encoded.addByte x nn
  | .ldReg x y => Laws.Encoded.ldReg x y
  | .orReg x y => Laws.Encoded.orReg x y
  | .andReg x y => Laws.Encoded.andReg x y
  | .xorReg x y => Laws.Encoded.xorReg x y
  | .addReg x y => Laws.Encoded.addReg x y
  | .subReg x y => Laws.Encoded.subReg x y
  | .shr x y => Laws.Encoded.shr x y
  | .subn x y => Laws.Encoded.subn x y
  | .shl x y => Laws.Encoded.shl x y
  | .sneReg x y => Laws.Encoded.sneReg x y
  | .ldI nnn => Laws.Encoded.ldI nnn
  | .jpV0 nnn => Laws.Encoded.jpV0 nnn
  | .rnd x nn => Laws.Encoded.rnd x nn
  | .drw x y n => Laws.Encoded.drw x y n
  | .skp x => Laws.Encoded.skp x
  | .sknp x => Laws.Encoded.sknp x
  | .ldVxDT x => Laws.Encoded.ldVxDT x
  | .ldVxK x => Laws.Encoded.ldVxK x
  | .ldDTVx x => Laws.Encoded.ldDTVx x
  | .ldSTVx x => Laws.Encoded.ldSTVx x
  | .addI x => Laws.Encoded.addI x
  | .ldF x => Laws.Encoded.ldF x
  | .ldB x => Laws.Encoded.ldB x
  | .storeRegs x => Laws.Encoded.storeRegs x
  | .loadRegs x => Laws.Encoded.loadRegs x

/-- A word that decodes matches the row of its instruction. -/
theorem matchesWord_of_decode (h : decode w = .ok i) :
    ∃ r, opcodeTable[i.row]? = some r ∧ r.matchesWord w = true := by
  rw [← encode_of_decode h]
  exact encode_matches_row i

/-- Settles O3: a matching row fixes what the word decodes to, and a decoded word matches its instruction's row. -/
theorem decodeFollowsOpcodeTable : Obligations.DecodeFollowsOpcodeTable := by
  intro w
  refine ⟨fun k r hr => ⟨decode_of_matchesWord hr, ?row⟩, ⟨?rejected, ?unmatched⟩⟩
  case row =>
    rintro ⟨i, hi, rfl⟩
    obtain ⟨q, hq, hw⟩ := matchesWord_of_decode hi
    rw [hr] at hq
    cases hq
    exact hw
  case rejected =>
    intro hno
    cases hd : decode w with
    | error e => exact ⟨e, rfl⟩
    | ok i =>
      obtain ⟨r, hr, hw⟩ := matchesWord_of_decode hd
      rw [hno r (List.mem_of_getElem? hr)] at hw
      cases hw
  case unmatched =>
    rintro ⟨e, he⟩ r hr
    rw [Bool.eq_false_iff]
    intro hw
    obtain ⟨k, hk⟩ := List.mem_iff_getElem?.1 hr
    obtain ⟨i, hi, -⟩ := decode_of_matchesWord hk hw
    rw [he] at hi
    cases hi

/-! ### The illegal words, family by family -/

theorem decodeFamily0_error_iff : (∃ e, decodeFamily0 w = .error e) ↔ w.toNat ≠ 0x00E0 ∧ w.toNat ≠ 0x00EE := by
  have h0 : w = 0x00E0 ↔ w.toNat = 0x00E0 := BitVec.toNat_inj.symm
  have hE : w = 0x00EE ↔ w.toNat = 0x00EE := BitVec.toNat_inj.symm
  simp only [decodeFamily0, h0, hE]
  split_ifs <;> simp_all

theorem decodeFamily8_error_iff : (∃ e, decodeFamily8 w = .error e) ↔
    (nField w).toNat ∈ [0x8, 0x9, 0xA, 0xB, 0xC, 0xD, 0xF] := by
  have hlt := (nField w).isLt
  unfold decodeFamily8
  split
  case h_10 =>
    simp only [Except.error.injEq, exists_eq', true_iff, List.mem_cons, List.not_mem_nil, or_false]
    grind
  all_goals simp_all

theorem decodeFamilyE_error_iff : (∃ e, decodeFamilyE w = .error e) ↔ nnField w ≠ 0x9E ∧ nnField w ≠ 0xA1 := by
  unfold decodeFamilyE
  split_ifs <;> simp_all

theorem decodeFamilyF_error_iff : (∃ e, decodeFamilyF w = .error e) ↔
    nnField w ∉ [0x07, 0x0A, 0x15, 0x18, 0x1E, 0x29, 0x33, 0x55, 0x65] := by
  unfold decodeFamilyF
  split_ifs <;> simp_all

/-- The table of illegal words, in terms of the fields the decoder tests. -/
theorem illegalWord_iff_fields : illegalWord w = true ↔
    (opField w).toNat = 0x0 ∧ w.toNat ≠ 0x00E0 ∧ w.toNat ≠ 0x00EE ∨
    ((opField w).toNat = 0x5 ∨ (opField w).toNat = 0x9) ∧ (nField w).toNat ≠ 0 ∨
    (opField w).toNat = 0x8 ∧ (nField w).toNat ∈ [0x8, 0x9, 0xA, 0xB, 0xC, 0xD, 0xF] ∨
    (opField w).toNat = 0xE ∧ nnField w ≠ 0x9E ∧ nnField w ≠ 0xA1 ∨
    (opField w).toNat = 0xF ∧ nnField w ∉ [0x07, 0x0A, 0x15, 0x18, 0x1E, 0x29, 0x33, 0x55, 0x65] := by
  simp [illegalWord, ← BitVec.toNat_inj, opField_toNat, nField_toNat, nnField_toNat, or_assoc, and_assoc]

/-- The decoder rejects exactly the illegal words: by the leading nibble, then by the family's own sub-opcodes. -/
theorem decode_error_iff : (∃ e, decode w = .error e) ↔ illegalWord w = true := by
  rw [illegalWord_iff_fields]
  have hlt := (opField w).isLt
  unfold decode
  split
  case h_1 hop => simp [hop, decodeFamily0_error_iff]
  case h_6 hop | h_10 hop =>
    simp only [hop, ← BitVec.toNat_inj]
    split_ifs <;> simp_all
  case h_9 hop => simp [hop, decodeFamily8_error_iff]
  case h_15 hop => simp [hop, decodeFamilyE_error_iff]
  case h_16 =>
    have hop : (opField w).toNat = 0xF := by grind
    simp [hop, decodeFamilyF_error_iff]
  all_goals next hop => simp [hop]

end Sys2Proof
end

section
/-! The cycle (30_encoding.md R90 to R92, 60_exceptions.md R204, R213 to R217): what a step answers in each of its four
cases, the fetch as bytes of memory, the end of a cycle and the run. -/

namespace Sys2Proof.Machine

variable {s t : State} {i : Instr} {w : Word} {f : FaultInfo} {r : FaultRecord}

/-! ### The four cases of a step -/

theorem step_of_fault (hs : s.fault = some r) : step s = .fault (.halted r) := by
  simp [step, hs]

theorem step_of_fetch_error (hs : s.fault = none) (hw : s.fetch = .error f) : step s = .next (s.takeFault none f) := by
  simp [step, hs, hw]

theorem step_of_decode_error {e : DecodeReject} (hs : s.fault = none) (hw : s.fetch = .ok w)
    (hd : decode w = .error e) : step s = .next (s.takeFault (some w) decodeFault) := by
  simp [step, hs, hw, hd]

theorem step_of_fetches (hs : s.fault = none) (hi : Fetches s i) : step s = endOfCycle (exec i s) := by
  obtain ⟨w, hw, hd⟩ := hi
  simp [step, hs, hw, hd]

/-- Settles O6: the one case of a step in which an instruction runs. -/
theorem stepRunsFetchedInstr : Obligations.StepRunsFetchedInstr :=
  fun _ _ => step_of_fetches

/-- Settles O4: the decoder rejects the illegal words family by family, and a step takes a rejected word's fault. -/
theorem illegalWordsFault : Obligations.IllegalWordsFault := by
  refine ⟨fun w => decode_error_iff, fun s w hs hw hill => ?_⟩
  obtain ⟨e, he⟩ := decode_error_iff.2 hill
  exact step_of_decode_error hs hw he

/-! ### The fetch -/

/-- Settles O7: nothing in the fetch asks whether pc is even. -/
theorem fetchIsBigEndian : Obligations.FetchIsBigEndian :=
  fun s hpc => ⟨_, State.fetch_ok s hpc, wordOfBytes_toNat _ _⟩

/-- Settles O8: the fetch faults at the first of its two addresses that is past memory. -/
theorem fetchOutsideMemoryFaults : Obligations.FetchOutsideMemoryFaults :=
  fun s hs hpc => step_of_fetch_error hs (State.fetch_error s hpc)

/-! ### The end of a cycle -/

/-- Settles O9: the three states a cycle can end in are running, paused and faulted. -/
theorem endOfCycleDecaysTimers : Obligations.EndOfCycleDecaysTimers := by
  intro t
  refine ⟨t.decay, rfl, ?rest, ?running, State.decay_of_paused t, ?faulted⟩
  case rest => unfold State.decay; split <;> rfl
  case running =>
    intro hf hp
    rw [State.decay_of_running t hf hp]
    exact ⟨decrement_toNat t.dt, decrement_toNat t.st⟩
  case faulted =>
    intro hf
    obtain ⟨r, hr⟩ := Option.ne_none_iff_exists'.1 hf
    exact State.decay_of_fault t r hr

/-! ### Runs -/

theorem cycle_of_fault (hs : s.fault = some r) : cycle false s = .next (s, .faulted r) := by
  simp [cycle, step_of_fault hs]

theorem run_of_fault (hs : s.fault = some r) (n : Nat) : run n s = .next (s, .faulted r) := by
  cases n with
  | zero => simp [run, hs]
  | succ n => simp [run, cycle_of_fault hs]

/-- Settles O10: a cycle and a run hand back the record the step stops with. -/
theorem faultStatusStopsMachine : Obligations.FaultStatusStopsMachine :=
  fun _ _ hs => ⟨step_of_fault hs, cycle_of_fault hs, run_of_fault hs⟩

/-- A cycle that samples no cancellation does not end cancelled (R215). -/
theorem cycle_false_not_cancelled : cycle false s ≠ .next (t, .cancelled) := by
  unfold cycle
  cases step s with
  | next u => cases hu : u.fault <;> simp [hu]
  | fault q => simp
  | refused q => simp

/-- A run that is cancelled before its first cycle leaves the state alone. -/
theorem eq_of_run_zero_cancelled (h : run 0 s = .next (t, .cancelled)) : t = s := by
  unfold run at h
  cases hs : s.fault <;> simp_all

/-- A run that is cancelled later got past its first cycle. -/
theorem run_succ_cancelled {n : Nat} (h : run (n + 1) s = .next (t, .cancelled)) :
    ∃ u, cycle false s = .next (u, .goOn) ∧ run n u = .next (t, .cancelled) := by
  unfold run at h
  split at h
  case h_1 u hu => exact ⟨u, hu, h⟩
  case h_3 u hu => exact absurd hu cycle_false_not_cancelled
  all_goals simp at h

theorem run_succ_of_goOn (h : cycle false s = .next (t, .goOn)) (n : Nat) : run (n + 1) s = run n t := by
  rw [run, h]

/-- Settles O57: by induction on the cycles before the cancellation. -/
theorem cancelledRunResumes : Obligations.CancelledRunResumes := by
  intro n m s t h
  induction n generalizing s with
  | zero => rw [eq_of_run_zero_cancelled h, Nat.zero_add]
  | succ n ih =>
    obtain ⟨u, hu, hrest⟩ := run_succ_cancelled h
    rw [Nat.add_right_comm, run_succ_of_goOn hu, ih u hrest]

end Sys2Proof.Machine
end

section
/-! Frames and checks: how each update of the state stays within the frame of an instruction that names what it changes
(10_state.md R20 to R36), and the one check an instruction makes before its effect (00_scope.md R12). -/

namespace Sys2Proof.Machine

/-! ### Frames -/

section Frames

variable {i : Instr} {s t u : State}

theorem Part.same_trans {p : Part} (hst : p.same s t) (htu : p.same t u) : p.same s u := by
  cases p <;> exact htu.trans hst

/-- A state that differs from one within the frame only in what the instruction names is within the frame. -/
theorem Frame.andThen (h : Frame i s t) (hparts : ∀ p, writesPart i p = false → p.same t u)
    (hregs : ∀ r, writesReg i r = false → u.reg r = t.reg r)
    (hmem : ∀ a, ¬ (effAddr s 0 ≤ a ∧ a < effAddr s 0 + storeWidth i) → u.mem.read a = t.mem.read a) :
    Frame i s u := by
  obtain ⟨hparts', hregs', hmem'⟩ := h
  exact ⟨fun p hp => Part.same_trans (hparts' p hp) (hparts p hp), fun r hr => (hregs r hr).trans (hregs' r hr),
    fun a ha => (hmem a ha).trans (hmem' a ha)⟩

/-- The same where registers and memory are untouched. -/
theorem Frame.andThen_parts (h : Frame i s t) (hparts : ∀ p, writesPart i p = false → p.same t u) (hv : u.v = t.v)
    (hmem : u.mem = t.mem) : Frame i s u :=
  h.andThen hparts (fun r _ => by simp only [State.reg, hv]) (fun a _ => by rw [hmem])

theorem Frame.refl (i : Instr) (s : State) : Frame i s s :=
  ⟨fun p _ => by cases p <;> rfl, fun _ _ => rfl, fun _ _ => rfl⟩

theorem Frame.setPc (h : Frame i s t) (a : Word) : Frame i s (t.setPc a) :=
  h.andThen_parts (fun p hp => by cases p <;> simp_all [Part.same, writesPart_pc]) rfl rfl

theorem Frame.rewindPc (h : Frame i s t) : Frame i s t.rewindPc := h.setPc _

theorem Frame.setI (h : Frame i s t) (a : Word) (hi : writesPart i .i = true) : Frame i s (t.setI a) :=
  h.andThen_parts (fun p hp => by cases p <;> simp_all [Part.same]) rfl rfl

theorem Frame.setDT (h : Frame i s t) (b : Byte) (hi : writesPart i .dt = true) : Frame i s (t.setDT b) :=
  h.andThen_parts (fun p hp => by cases p <;> simp_all [Part.same]) rfl rfl

theorem Frame.setST (h : Frame i s t) (b : Byte) (hi : writesPart i .st = true) : Frame i s (t.setST b) :=
  h.andThen_parts (fun p hp => by cases p <;> simp_all [Part.same]) rfl rfl

theorem Frame.setPaused (h : Frame i s t) (b : Bool) (hi : writesPart i .paused = true) :
    Frame i s (t.setPaused b) :=
  h.andThen_parts (fun p hp => by cases p <;> simp_all [Part.same]) rfl rfl

theorem Frame.countDraw (h : Frame i s t) (hi : writesPart i .draws = true) : Frame i s t.countDraw :=
  h.andThen_parts (fun p hp => by cases p <;> simp_all [Part.same]) rfl rfl

theorem Frame.pop (h : Frame i s t) (hi : writesPart i .sp = true) : Frame i s t.pop :=
  h.andThen_parts (fun p hp => by cases p <;> simp_all [Part.same]) rfl rfl

theorem Frame.push (h : Frame i s t) (a : Word) (hsp : writesPart i .sp = true) (hstk : writesPart i .stk = true) :
    Frame i s (t.push a) :=
  h.andThen_parts (fun p hp => by cases p <;> simp_all [Part.same]) (State.push_v t a) (State.push_mem t a)

/-- Registers loaded from a list stay within the frame of an instruction that names each of them. -/
theorem Frame.setRegs (h : Frame i s t) (k : Nat) (bs : List Byte) (hlen : k + bs.length ≤ 16)
    (hw : ∀ r : Nibble, k ≤ r.toNat → r.toNat < k + bs.length → writesReg i r = true) :
    Frame i s (t.setRegs k bs) := by
  refine h.andThen (fun p _ => by cases p <;> simp [Part.same]) ?regs (fun a _ => by rw [State.setRegs_mem])
  case regs =>
    intro r hr
    have hout : ¬ (k ≤ r.toNat ∧ r.toNat < k + bs.length) :=
      fun hin => Bool.false_ne_true (hr.symm.trans (hw r hin.1 hin.2))
    rw [State.setRegs_reg t k bs hlen, if_neg hout]

/-- Bytes stored from I up stay within the frame of an instruction that stores so many (R60). -/
theorem Frame.writeBytes (h : Frame i s t) (bs : List Byte) (hlen : bs.length = storeWidth i) :
    Frame i s (t.setMem (t.mem.writeBytes (effAddr s 0) bs)) := by
  refine h.andThen (fun p _ => by cases p <;> rfl) (fun _ _ => rfl) (fun a ha => ?_)
  rw [State.setMem_mem, Memory.read_writeBytes, hlen, if_neg ha]

end Frames

/-! ### Checks -/

section Checks

variable {i : Instr} {s e : State} {f : FaultInfo} {n : Nat}

/-- The check an instruction makes before its effect: of the stack, of a key operand, or of every byte it accesses. -/
def checkOf (i : Instr) (s : State) : Option FaultInfo :=
  match i with
  | .ret => checkPop s
  | .call _ => checkPush s
  | .skp x => checkKey (s.reg x)
  | .sknp x => checkKey (s.reg x)
  | .drw _ _ n => firstFault checkRead (effAddr s 0) n.toNat
  | .loadRegs x => firstFault checkRead (effAddr s 0) (x.toNat + 1)
  | .ldB _ => firstFault checkWrite (effAddr s 0) 3
  | .storeRegs x => firstFault checkWrite (effAddr s 0) (x.toNat + 1)
  | _ => none

/-- Every instruction is its check and an effect (R12). -/
theorem exec_eq_guarded (i : Instr) (s : State) : ∃ e, exec i s = guarded i (checkOf i s) s e := by
  cases i
  case ldVxK =>
    simp only [exec, execLdVxK]
    cases s.lowestKey <;> exact ⟨_, rfl⟩
  all_goals exact ⟨_, rfl⟩

/-- An instruction whose check fails takes that fault, with its own word (R202, R203). -/
theorem exec_of_check_some (h : checkOf i s = some f) : exec i s = .next (s.takeFault (some (encode i)) f) := by
  obtain ⟨e, he⟩ := exec_eq_guarded i s
  rw [he, h, guarded_some]

/-- An instruction whose check passes runs, if its effect stays within its frame. -/
theorem completes_of_check_none (he : exec i s = guarded i (checkOf i s) s e) (hc : checkOf i s = none)
    (hf : Frame i s e) : Completes i s e :=
  ⟨by rw [he, hc, guarded_none], hf⟩

theorem checkPop_none_iff : checkPop s = none ↔ 0 < s.sp.val := by
  unfold checkPop
  split <;> simp_all

theorem checkPush_none_iff : checkPush s = none ↔ s.sp.val < 32 := by
  unfold checkPush
  split <;> simp_all

theorem checkKey_none_iff {a : Byte} : checkKey a = none ↔ a.toNat < 16 := by
  unfold checkKey
  split <;> simp_all

theorem checkPop_some (h : checkPop s = some f) : s.sp.val = 0 ∧ f = ⟨.stackUnderflow, none⟩ := by
  unfold checkPop at h
  split at h <;> simp_all

theorem checkPush_some (h : checkPush s = some f) : s.sp.val = 32 ∧ f = ⟨.stackOverflow, none⟩ := by
  have hle := s.sp_le
  unfold checkPush at h
  split at h <;> simp_all
  omega

theorem checkKey_some {a : Byte} (h : checkKey a = some f) :
    15 < a.toNat ∧ f = ⟨.keyIndexOutOfRange, some a.toNat⟩ := by
  unfold checkKey at h
  split at h <;> simp_all
  omega

/-- The access checks from I up pass where every byte lies in memory. -/
theorem readChecks_none_iff : firstFault checkRead (effAddr s 0) n = none ↔ ∀ k < n, Readable s k := by
  simp only [firstFault_none_iff, effAddr_add, readable_iff]

/-- The access checks from I up pass where every byte may be written. -/
theorem writeChecks_none_iff : firstFault checkWrite (effAddr s 0) n = none ↔ ∀ k < n, Writable s k := by
  simp only [firstFault_none_iff, effAddr_add, writable_iff]

end Checks

end Sys2Proof.Machine
end

section
/-! Shifts, the flag register as a destination, and the random byte (40_alu.md R113 to R118). -/

namespace Sys2Proof.Machine

theorem shr_completes (s : State) (x y : Nibble) :
    Completes (.shr x y) s ((s.advancePc.setReg 0xF (flagByte (lowBitFlag (s.reg x)))).setReg x (s.reg x >>> 1)) :=
  completes_setReg_setReg rfl (by simp [writesReg]) (by simp [writesReg])

theorem shl_completes (s : State) (x y : Nibble) :
    Completes (.shl x y) s ((s.advancePc.setReg 0xF (flagByte (highBitFlag (s.reg x)))).setReg x (s.reg x <<< 1)) :=
  completes_setReg_setReg rfl (by simp [writesReg]) (by simp [writesReg])

theorem rnd_completes (s : State) (x : Nibble) (nn : Byte) :
    Completes (.rnd x nn) s (s.advancePc.countDraw.setReg x (s.randNow &&& nn)) :=
  ⟨rfl, ((frame_advancePc _ s).countDraw rfl).setReg (by simp [writesReg])⟩

theorem byte_shr_toNat (a : Byte) : (a >>> 1).toNat = a.toNat / 2 := by
  rw [BitVec.toNat_ushiftRight, Nat.shiftRight_one]

theorem byte_shl_toNat (a : Byte) : (a <<< 1).toNat = a.toNat * 2 % 256 := by
  rw [BitVec.toNat_shiftLeft, Nat.shiftLeft_eq]

/-- The bit a shift to the right puts out (R103). -/
theorem lowBitFlag_toNat (a : Byte) : (flagByte (lowBitFlag a)).toNat = a.toNat % 2 := by
  revert a
  decide

/-- The bit a shift to the left puts out (R103). -/
theorem highBitFlag_toNat (a : Byte) : (flagByte (highBitFlag a)).toNat = a.toNat / 128 := by
  revert a
  decide

/-- Settles O33: y occurs in neither answer. -/
theorem shiftsPutTheBitInVF : Obligations.ShiftsPutTheBitInVF := by
  intro s x y hx
  refine ⟨⟨_, shr_completes s x y, rfl, ?shr, ?shrFlag⟩, ⟨_, shl_completes s x y, rfl, ?shl, ?shlFlag⟩⟩
  case shr => rw [State.reg_setReg_self, byte_shr_toNat]
  case shl => rw [State.reg_setReg_self, byte_shl_toNat]
  case shrFlag => rw [State.reg_setReg_ne _ _ _ _ hx.symm, State.reg_setReg_self, lowBitFlag_toNat]
  case shlFlag => rw [State.reg_setReg_ne _ _ _ _ hx.symm, State.reg_setReg_self, highBitFlag_toNat]

/-- Settles O34: of two writes to one register the later is read back, the flag for the addition and the result for the
four others. -/
theorem flagRegisterAsDestination : Obligations.FlagRegisterAsDestination := by
  intro s y
  refine ⟨⟨_, addReg_completes s 0xF y, rfl, ?carry⟩, ⟨_, subReg_completes s 0xF y, rfl, ?sub⟩,
    ⟨_, shr_completes s 0xF y, rfl, ?shr⟩, ⟨_, subn_completes s 0xF y, rfl, ?subn⟩,
    ⟨_, shl_completes s 0xF y, rfl, ?shl⟩⟩ <;> rw [State.reg_setReg_self]
  case carry => exact carryFlag_toNat _ _
  case sub | subn => exact byte_sub_toNat _ _
  case shr => exact byte_shr_toNat _
  case shl => exact byte_shl_toNat _

/-- Settles O35: the byte drawn is only ever named, so it may be any. -/
theorem randomByteIsMasked : Obligations.RandomByteIsMasked := by
  intro s x nn
  refine ⟨_, rnd_completes s x nn, rfl, rfl, fun k _ => ?_⟩
  rw [State.reg_setReg_self, BitVec.getLsbD_and, State.randNow]

end Sys2Proof.Machine
end

section
/-! Jumps, register skips, calls and returns (42_control_flow.md). -/

namespace Sys2Proof.Machine

variable {s t u w : State} {nnn : Imm12}

theorem jp_completes (s : State) (nnn : Imm12) : Completes (.jp nnn) s (s.advancePc.setPc (zextAddr nnn)) :=
  ⟨rfl, (frame_advancePc _ s).setPc _⟩

theorem jpV0_completes (s : State) (nnn : Imm12) :
    Completes (.jpV0 nnn) s (s.advancePc.setPc (indexedTarget nnn (s.reg 0))) :=
  ⟨rfl, (frame_advancePc _ s).setPc _⟩

theorem seReg_completes (s : State) (x y : Nibble) :
    Completes (.seReg x y) s (s.advancePc.skipIf (s.reg x == s.reg y)) :=
  ⟨rfl, (frame_advancePc _ s).skipIf _⟩

theorem sneReg_completes (s : State) (x y : Nibble) :
    Completes (.sneReg x y) s (s.advancePc.skipIf (s.reg x != s.reg y)) :=
  ⟨rfl, (frame_advancePc _ s).skipIf _⟩

theorem call_completes (h : s.sp.val < 32) :
    Completes (.call nnn) s ((s.advancePc.push s.advancePc.pc).setPc (zextAddr nnn)) :=
  completes_of_check_none rfl (checkPush_none_iff.2 h) (((frame_advancePc _ s).push _ rfl rfl).setPc _)

theorem ret_completes (h : 0 < s.sp.val) : Completes .ret s (s.pop.setPc s.top) :=
  completes_of_check_none rfl (checkPop_none_iff.2 h) (((Frame.refl _ s).pop rfl).setPc _)

theorem zextAddr_toNat (nnn : Imm12) : (zextAddr nnn).toNat = nnn.toNat := by
  have := nnn.isLt
  simp only [zextAddr, BitVec.toNat_setWidth]
  omega

/-- The target of Bnnn needs no reduction: it is at most 0x10FE (R150). -/
theorem indexedTarget_toNat (nnn : Imm12) (a : Byte) : (indexedTarget nnn a).toNat = nnn.toNat + a.toNat := by
  have := nnn.isLt
  have := a.isLt
  simp only [indexedTarget, BitVec.toNat_add, zextAddr_toNat, BitVec.toNat_setWidth]
  omega

/-- Settles O39. -/
theorem jumpsGoToTheirTargets : Obligations.JumpsGoToTheirTargets :=
  fun s nnn => ⟨⟨_, jp_completes s nnn, zextAddr_toNat nnn⟩, ⟨_, jpV0_completes s nnn, indexedTarget_toNat nnn _⟩⟩

/-- Settles O44: both are one skip after the fetch, under opposite conditions on the same two registers. -/
theorem registerSkips : Obligations.RegisterSkips := by
  intro s x y
  refine ⟨⟨_, seReg_completes s x y, ?equal⟩, ⟨_, sneReg_completes s x y, ?different⟩⟩
  case equal => simp only [advancePc_skipIf_pc, beq_iff_eq]
  case different => simp only [advancePc_skipIf_pc, bne_iff_ne, ite_not]

/-- What a completed call leaves on the stack (R145). -/
theorem call_stack (h : s.sp.val < 32) (ht : exec (.call nnn) s = .next t) :
    t.sp.val = s.sp.val + 1 ∧ ∀ j : Fin 32, t.stk[j] = if j.val = s.sp.val then s.pc + 2 else s.stk[j] := by
  obtain ⟨he, -⟩ := call_completes (nnn := nnn) h
  rw [ht] at he
  cases he
  exact ⟨State.push_sp _ _ h, State.push_entry _ _ h⟩

/-- What a completed return leaves (R143). -/
theorem ret_effect (h : 0 < s.sp.val) (ht : exec .ret s = .next t) : t.sp = s.pop.sp ∧ t.pc = s.top := by
  obtain ⟨he, -⟩ := ret_completes h
  rw [ht] at he
  cases he
  exact ⟨rfl, rfl⟩

/-- Settles O40: the check of the push decides between the two outcomes. -/
theorem callPushesOrOverflows : Obligations.CallPushesOrOverflows := by
  intro s nnn
  refine ⟨packNNN_toNat 0x2 nnn, fun h => ?pushes, fun h => ?overflows⟩
  case pushes =>
    have hc := call_completes (nnn := nnn) h
    obtain ⟨hsp, hstk⟩ := call_stack h hc.1
    refine ⟨_, hc, zextAddr_toNat nnn, hsp, ?_, fun j hj => ?_⟩
    · exact (hstk ⟨s.sp.val, h⟩).trans (if_pos rfl)
    · exact (hstk j).trans (if_neg hj)
  case overflows =>
    have hc : checkOf (.call nnn) s = some ⟨.stackOverflow, none⟩ := by simp [checkOf, checkPush, h]
    exact ⟨_, _, exec_of_check_some hc, rfl, rfl, rfl, rfl, rfl⟩

/-- Settles O41: the check of the pop decides between the two outcomes. -/
theorem returnPopsOrUnderflows : Obligations.ReturnPopsOrUnderflows := by
  refine ⟨rfl, fun s => ⟨fun h => ⟨_, ret_completes h, State.pop_sp s, rfl⟩, fun h => ?underflows⟩⟩
  case underflows =>
    have hc : checkOf .ret s = some ⟨.stackUnderflow, none⟩ := by simp [checkOf, checkPop, h]
    exact ⟨_, _, exec_of_check_some hc, rfl, rfl, rfl, rfl⟩

/-- Settles O42: the return reads the entry the call wrote, which the subroutine kept. -/
theorem callThenReturnComesBack : Obligations.CallThenReturnComesBack := by
  intro s t u w nnn h ht husp hustk hw
  obtain ⟨htsp, htstk⟩ := call_stack h ht
  have husp' : u.sp.val = s.sp.val + 1 := by rw [husp, htsp]
  obtain ⟨hwsp, hwpc⟩ := ret_effect (by omega) hw
  refine ⟨?pc, ?sp⟩
  case pc =>
    have htop : u.top = u.stk[(⟨s.sp.val, h⟩ : Fin 32)] := by simp [State.top, husp']
    rw [hwpc, htop, hustk ⟨s.sp.val, h⟩ (by rw [htsp]; exact Nat.lt_succ_self _), htstk, if_pos rfl]
  case sp => rw [hwsp, Fin.ext_iff, State.pop_sp, husp', Nat.add_sub_cancel]

end Sys2Proof.Machine
end

section
/-! Timers, key skips and the key wait (43_timer_input.md). -/

namespace Sys2Proof.Machine

variable {s t : State} {x k : Nibble}

theorem ldVxDT_completes (s : State) (x : Nibble) : Completes (.ldVxDT x) s (s.advancePc.setReg x s.dt) :=
  completes_setReg rfl (by simp [writesReg])

theorem ldDTVx_completes (s : State) (x : Nibble) : Completes (.ldDTVx x) s (s.advancePc.setDT (s.reg x)) :=
  ⟨rfl, (frame_advancePc _ s).setDT _ rfl⟩

theorem ldSTVx_completes (s : State) (x : Nibble) : Completes (.ldSTVx x) s (s.advancePc.setST (s.reg x)) :=
  ⟨rfl, (frame_advancePc _ s).setST _ rfl⟩

theorem skp_completes (h : (s.reg x).toNat < 16) :
    Completes (.skp x) s (s.advancePc.skipIf (s.keyHeld (keyOperand (s.reg x)))) :=
  completes_of_check_none rfl (checkKey_none_iff.2 h) ((frame_advancePc _ s).skipIf _)

theorem sknp_completes (h : (s.reg x).toNat < 16) :
    Completes (.sknp x) s (s.advancePc.skipIf (!s.keyHeld (keyOperand (s.reg x)))) :=
  completes_of_check_none rfl (checkKey_none_iff.2 h) ((frame_advancePc _ s).skipIf _)

theorem ldVxK_completes_of_key {n : Nat} (h : s.lowestKey = some n) :
    Completes (.ldVxK x) s ((s.advancePc.setReg x (BitVec.ofNat 8 n)).setPaused false) :=
  ⟨by simp only [exec, execLdVxK, h], ((frame_advancePc _ s).setReg (by simp [writesReg])).setPaused _ rfl⟩

theorem ldVxK_completes_of_no_key (h : s.lowestKey = none) :
    Completes (.ldVxK x) s (s.advancePc.setPaused true).rewindPc :=
  ⟨by simp only [exec, execLdVxK, h], ((frame_advancePc _ s).setPaused _ rfl).rewindPc⟩

/-- The words of the F family (R83, R84), the sub-opcode beside the leading nibble. -/
theorem packXNN_familyF_toNat (x : Nibble) (nn : Byte) :
    (packXNN 0xF x nn).toNat = 0xF000 + nn.toNat + x.toNat * 256 := by
  calc (packXNN 0xF x nn).toNat
      = 0xF000 + x.toNat * 256 + nn.toNat := packXNN_toNat 0xF x nn
    _ = 0xF000 + nn.toNat + x.toNat * 256 := Nat.add_right_comm _ _ _

/-- Settles O46: each is one write after the fetch. -/
theorem timerTransfers : Obligations.TimerTransfers := by
  intro s x
  exact ⟨⟨packXNN_familyF_toNat x 0x07, _, ldVxDT_completes s x, State.reg_setReg_self _ _ _, rfl⟩,
    ⟨packXNN_familyF_toNat x 0x15, _, ldDTVx_completes s x, rfl, rfl⟩,
    ⟨packXNN_familyF_toNat x 0x18, _, ldSTVx_completes s x, rfl, rfl⟩⟩

/-- A register value that is a key names that key (R166). -/
theorem keyOperand_of_toNat {a : Byte} (h : a.toNat = k.toNat) : keyOperand a = k := by
  rw [keyOperand, h, BitVec.ofNat_toNat, BitVec.setWidth_eq]

theorem checkKey_of_large {a : Byte} (h : 15 < a.toNat) : checkKey a = some ⟨.keyIndexOutOfRange, some a.toNat⟩ :=
  if_neg (show ¬ a.toNat < 16 by omega)

/-- Settles O45: the check of the key operand decides between skip and fault, and the latch between the two skips. -/
theorem keySkips : Obligations.KeySkips := by
  intro s x
  refine ⟨fun k hk => ?skips, fun h => ⟨?skpFault, ?sknpFault⟩⟩
  case skips =>
    have hlt : (s.reg x).toNat < 16 := hk.trans_lt k.isLt
    refine ⟨⟨_, skp_completes hlt, ?_⟩, ⟨_, sknp_completes hlt, ?_⟩⟩
    · rw [advancePc_skipIf_pc, keyOperand_of_toNat hk]
    · rw [advancePc_skipIf_pc, keyOperand_of_toNat hk]
      cases s.keyHeld k <;> rfl
  case skpFault => exact exec_of_check_some (i := .skp x) (checkKey_of_large h)
  case sknpFault => exact exec_of_check_some (i := .sknp x) (checkKey_of_large h)

theorem nibble_as_byte_toNat (k : Nibble) : (BitVec.ofNat 8 k.toNat).toNat = k.toNat := by
  have := k.isLt
  rw [BitVec.toNat_ofNat]
  omega

theorem advance_rewind (a : Word) : a + 2 - 2 = a := BitVec.add_sub_cancel a 2

/-- Settles O47: the scan of the latch decides between the two outcomes. -/
theorem keyWaitTakesLowestKey : Obligations.KeyWaitTakesLowestKey := by
  intro s x
  refine ⟨packXNN_familyF_toNat x 0x0A, fun k hk hlow => ?taken, fun hno => ?waits⟩
  case taken =>
    refine ⟨_, ldVxK_completes_of_key (State.lowestKey_of_held s k hk hlow), ?_, rfl, rfl⟩
    rw [State.setPaused_reg, State.reg_setReg_self, nibble_as_byte_toNat]
  case waits =>
    exact ⟨_, ldVxK_completes_of_no_key (State.lowestKey_of_none s hno), rfl, rfl, advance_rewind s.pc⟩

/-- A cycle at an Fx0A with no key held leaves only paused set (R163, R225). -/
theorem step_ldVxK_of_no_key (hs : s.fault = none) (hx : Fetches s (.ldVxK x)) (hno : ∀ k, s.keyHeld k = false) :
    step s = .next (s.setPaused true) := by
  obtain ⟨he, -⟩ := ldVxK_completes_of_no_key (x := x) (State.lowestKey_of_none s hno)
  have hu : (s.advancePc.setPaused true).rewindPc = s.setPaused true := by
    simp only [State.advancePc, State.setPaused, State.rewindPc, advance_rewind]
  rw [step_of_fetches hs hx, he, hu, endOfCycle, State.decay_of_paused _ rfl]

/-- A cycle at an Fx0A whose lowest held key is k takes that key and goes on (R163). -/
theorem step_ldVxK_of_key (hs : s.fault = none) (hx : Fetches s (.ldVxK x)) (hk : s.lowestKey = some k.toNat) :
    ∃ u, step s = .next u ∧ u.pc = s.pc + 2 ∧ (u.reg x).toNat = k.toNat ∧ u.paused = false := by
  obtain ⟨he, -⟩ := ldVxK_completes_of_key (x := x) hk
  refine ⟨_, by rw [step_of_fetches hs hx, he, endOfCycle], ?pc, ?reg, ?paused⟩
  case pc => rw [State.decay_pc, State.setPaused_pc, State.setReg_pc, State.advancePc_pc]
  case reg => rw [State.decay_reg, State.setPaused_reg, State.reg_setReg_self, nibble_as_byte_toNat]
  case paused => rw [State.decay_paused, State.setPaused_paused]

/-- What is fetched depends on pc and memory alone. -/
theorem Fetches.congr {i : Instr} (h : Fetches s i) (hpc : t.pc = s.pc) (hmem : t.mem = s.mem) : Fetches t i := by
  obtain ⟨w, hw, hd⟩ := h
  exact ⟨w, (State.fetch_congr s t hpc (fun a => by rw [hmem])).trans hw, hd⟩

/-- After a key-down where no key was held, that key is the lowest held one. -/
theorem lowestKey_keyDown (hno : ∀ j, s.keyHeld j = false) (k : Nibble) : (s.keyDown k).lowestKey = some k.toNat := by
  refine State.lowestKey_of_held _ k ?held fun j hj => ?lower
  case held => rw [State.keyDown, State.keyHeld_setKey, if_pos rfl]
  case lower =>
    have hne : j ≠ k := by rintro rfl; exact lt_irrefl _ hj
    rw [State.keyDown, State.keyHeld_setKey, if_neg hne, hno]

/-- Settles O48: by induction on the cycles, each of which leaves a state that waits at the same Fx0A. -/
theorem keyWaitHoldsUntilKeyDown : Obligations.KeyWaitHoldsUntilKeyDown := by
  intro s x hs hx hno n
  induction n generalizing s with
  | zero =>
    refine ⟨s, rfl, rfl, rfl, rfl, fun k => ?_⟩
    exact step_ldVxK_of_key hs (hx.congr rfl rfl) (lowestKey_keyDown hno k)
  | succ n ih =>
    obtain ⟨t, ht, hrest⟩ := ih (s.setPaused true) hs (hx.congr rfl rfl) hno
    exact ⟨t, ⟨_, step_ldVxK_of_no_key hs hx hno, ht⟩, hrest⟩

end Sys2Proof.Machine
end

section
/-! The index register and the accesses from I up (44_index_memory.md, 20_memory.md R54 to R68). -/

namespace Sys2Proof.Machine

variable {s t : State} {x : Nibble} {n k : Nat}

/-! ### What each instruction answers -/

theorem ldI_completes (s : State) (nnn : Imm12) : Completes (.ldI nnn) s (s.advancePc.setI (zextAddr nnn)) :=
  ⟨rfl, (frame_advancePc _ s).setI _ rfl⟩

theorem addI_completes (s : State) (x : Nibble) : Completes (.addI x) s (s.advancePc.setI (indexSum s.i (s.reg x))) :=
  ⟨rfl, (frame_advancePc _ s).setI _ rfl⟩

theorem ldF_completes (s : State) (x : Nibble) : Completes (.ldF x) s (s.advancePc.setI (glyphAddr (s.reg x))) :=
  ⟨rfl, (frame_advancePc _ s).setI _ rfl⟩

theorem ldB_completes (h : ∀ k < 3, Writable s k) :
    Completes (.ldB x) s (s.advancePc.setMem (s.mem.writeBytes (effAddr s 0) (decimalDigits (s.reg x)))) :=
  completes_of_check_none rfl (writeChecks_none_iff.2 h) ((frame_advancePc _ s).writeBytes _ rfl)

theorem storeRegs_completes (h : ∀ k < x.toNat + 1, Writable s k) :
    Completes (.storeRegs x) s (s.advancePc.setMem (s.mem.writeBytes (effAddr s 0) (s.regsUpTo x))) :=
  completes_of_check_none rfl (writeChecks_none_iff.2 h)
    ((frame_advancePc _ s).writeBytes _ (State.regsUpTo_length s x))

theorem loadRegs_completes (h : ∀ k < x.toNat + 1, Readable s k) :
    Completes (.loadRegs x) s (s.advancePc.setRegs 0 (s.mem.readBytes (effAddr s 0) (x.toNat + 1))) := by
  have hx := x.isLt
  refine completes_of_check_none rfl (readChecks_none_iff.2 h) ((frame_advancePc _ s).setRegs _ _ ?len ?named)
  case len =>
    rw [Memory.readBytes_length]
    omega
  case named =>
    intro r _ hr
    rw [Memory.readBytes_length] at hr
    simp only [writesReg, decide_eq_true_eq]
    omega

/-! ### The index register -/

theorem glyphAddr_toNat (a : Byte) : (glyphAddr a).toNat = 0x050 + 5 * a.toNat := by
  have := a.isLt
  exact Nat.mod_eq_of_lt (show 0x050 + 5 * a.toNat < 65536 by omega)

theorem indexSum_toNat (idx : Word) (a : Byte) : (indexSum idx a).toNat = (idx.toNat + a.toNat) % 65536 := by
  have := a.isLt
  simp only [indexSum, BitVec.toNat_add, BitVec.toNat_setWidth]
  omega

/-- Settles O49: each is one write of I after the fetch. -/
theorem indexRegisterWrites : Obligations.IndexRegisterWrites :=
  fun s x nnn => ⟨⟨_, ldI_completes s nnn, zextAddr_toNat nnn, rfl⟩,
    ⟨_, addI_completes s x, indexSum_toNat s.i (s.reg x), rfl⟩, ⟨_, ldF_completes s x, glyphAddr_toNat (s.reg x), rfl⟩⟩

/-! ### Stores and loads -/

/-- Byte `k` of a store from I up is read back at its address. -/
theorem read_writeBytes_effAddr {m : Memory} {bs : List Byte} {b : Byte} (h : bs[k]? = some b) :
    (m.writeBytes (effAddr s 0) bs).read (effAddr s k) = b := by
  have hk := (List.getElem?_eq_some_iff.1 h).1
  have he := effAddr_add s k
  rw [Memory.read_writeBytes, if_pos (by omega), show effAddr s k - effAddr s 0 = k by omega, h, Option.getD_some]

/-- Settles O50: the three bytes stored are the three digits. -/
theorem decimalDigitsAreStored : Obligations.DecimalDigitsAreStored := by
  intro s x h
  have hlt := (s.reg x).isLt
  refine ⟨_, ldB_completes h, rfl, ?hundreds, ?tens, ?units⟩ <;>
    rw [State.setMem_mem, read_writeBytes_effAddr rfl, BitVec.toNat_ofNat]
  all_goals omega

/-- Settles O51: byte `j` of the stored list is register `j`. -/
theorem registersAreStored : Obligations.RegistersAreStored := by
  intro s x h
  refine ⟨_, storeRegs_completes fun k hk => h k (by omega), rfl, fun j hj => ?_⟩
  rw [State.setMem_mem, read_writeBytes_effAddr (State.regsUpTo_getElem s x j.toNat hj), BitVec.ofNat_toNat,
    BitVec.setWidth_eq]

/-- Register `j` after the load is the byte read at its address (R187). -/
theorem reg_setRegs_readBytes (s t : State) (hx : n ≤ 16) (j : Nibble) (hj : j.toNat < n) :
    (t.setRegs 0 (s.mem.readBytes (effAddr s 0) n)).reg j = s.mem.read (effAddr s j.toNat) := by
  have hlen := Memory.readBytes_length s.mem (effAddr s 0) n
  rw [State.setRegs_reg _ _ _ (by omega), if_pos (by omega), Nat.sub_zero, Memory.readBytes_getElem _ _ _ _ hj,
    effAddr_add, Option.getD_some]

/-- Settles O52: byte `j` of the list read goes to register `j`. -/
theorem registersAreLoaded : Obligations.RegistersAreLoaded := by
  intro s x h
  refine ⟨_, loadRegs_completes fun k hk => h k (by omega), ?pc, fun j hj => ?reg⟩
  case pc => rw [State.setRegs_pc, State.advancePc_pc]
  case reg => exact reg_setRegs_readBytes s _ (by have := x.isLt; omega) j (by omega)

/-- What may be written may be read (R55, R56). -/
theorem Writable.readable (h : Writable s k) : Readable s k := h.1

theorem effAddr_congr (h : t.i = s.i) (k : Nat) : effAddr t k = effAddr s k := by
  simp only [effAddr, h]

/-- The state a store has answered, from the lemma that says it runs. -/
theorem storeRegs_effect (h : ∀ k ≤ x.toNat, Writable s k) (ht : exec (.storeRegs x) s = .next t) :
    t.pc = s.pc + 2 ∧ ∀ j : Nibble, j.toNat ≤ x.toNat → t.mem.read (effAddr s j.toNat) = s.reg j := by
  obtain ⟨u, ⟨he, -⟩, hpc, hmem⟩ := registersAreStored s x h
  rw [ht] at he
  cases he
  exact ⟨hpc, hmem⟩

/-- The registers a load has answered, from the lemma that says it runs. -/
theorem loadRegs_effect (h : ∀ k ≤ x.toNat, Readable s k) (ht : exec (.loadRegs x) s = .next t) :
    ∀ j : Nibble, j.toNat ≤ x.toNat → t.reg j = s.mem.read (effAddr s j.toNat) := by
  obtain ⟨u, ⟨he, -⟩, -, hreg⟩ := registersAreLoaded s x h
  rw [ht] at he
  cases he
  exact hreg

/-- Settles O55: the load reads, at the same addresses, the memory the store left. -/
theorem storeThenLoadRestores : Obligations.StoreThenLoadRestores := by
  intro s t u w x h ht hui humem hw j hj
  have hread : ∀ k ≤ x.toNat, Readable u k := by
    intro k hk
    rw [Readable, effAddr_congr hui]
    exact (h k hk).readable
  obtain ⟨-, hstored⟩ := storeRegs_effect h ht
  rw [loadRegs_effect hread hw j hj, humem, effAddr_congr hui, hstored j hj]

/-- Settles O56: the two bytes of the fetch are the first two the store wrote. -/
theorem storedCodeIsFetched : Obligations.StoredCodeIsFetched := by
  intro s t x hx h hi ht
  obtain ⟨hpc, hstored⟩ := storeRegs_effect h ht
  have hpcI : t.pc.toNat = effAddr s 0 := by rw [effAddr, hi, hpc, Nat.add_zero]
  have hbound : t.pc.toNat + 1 < 4096 := by
    rw [hpcI, effAddr_add]
    exact (h 1 hx).readable
  have hfirst : t.mem.read (effAddr s 0) = s.reg 0 := hstored 0 (Nat.zero_le _)
  have hsecond : t.mem.read (effAddr s 1) = s.reg 1 := hstored 1 hx
  rw [State.fetch_ok t hbound, hpcI, effAddr_add, hfirst, hsecond]

end Sys2Proof.Machine
end

section
/-! The sprite draw (41_display.md R132 to R138): the drawing loop paints the picture of `spritePixel`, then the
obligations. -/

namespace Sys2Proof.Machine

variable {s t u w : State} {x y n : Nibble} {r c : Nat}

theorem startRow_lt (a : Byte) : startRow a < 32 := Nat.mod_lt _ (by decide)

/-- A pixel of the sprite lies on the grid (R134). -/
theorem spritePixel_bounds (h : spritePixel s x y n r c = true) : r < 32 ∧ c < 64 := by
  simp only [spritePixel, Bool.and_eq_true, decide_eq_true_eq] at h
  obtain ⟨⟨-, -, hr, -, -, hc⟩, -⟩ := h
  exact ⟨hr, hc⟩

/-- The bytes of the drawn rows give the picture of the clipped sprite. -/
theorem spriteBit_eq_spritePixel (s : State) (x y n : Nibble) (r c : Nat) :
    spriteBit (startColumn (s.reg x)) (startRow (s.reg y))
      (s.mem.readBytes (effAddr s 0) (drawnRows n (startRow (s.reg y)))) r c = spritePixel s x y n r c := by
  have hrow := startRow_lt (s.reg y)
  have hrows : drawnRows n (startRow (s.reg y)) = min n.toNat (32 - startRow (s.reg y)) := rfl
  simp only [spriteBit, rowBit, spritePixel, Memory.readBytes_length]
  by_cases hr : startRow (s.reg y) ≤ r ∧ r < startRow (s.reg y) + drawnRows n (startRow (s.reg y))
  case pos =>
    rw [Memory.readBytes_getElem _ _ _ _ (by omega), effAddr_add, Option.getD_some, ← Bool.and_assoc,
      ← Bool.decide_and]
    congr 2
    simp only [Config.dispW, Config.dispH, eq_iff_iff]
    omega
  case neg =>
    rw [decide_eq_false hr, Bool.false_and, decide_eq_false, Bool.false_and]
    simp only [Config.dispW, Config.dispH]
    omega

/-- The drawn rows end on the grid (R134). -/
theorem drawnRows_fit (s : State) (y n : Nibble) :
    startRow (s.reg y) + (s.mem.readBytes (effAddr s 0) (drawnRows n (startRow (s.reg y)))).length ≤ 32 := by
  have hrow := startRow_lt (s.reg y)
  have hrows : drawnRows n (startRow (s.reg y)) = min n.toNat (32 - startRow (s.reg y)) := rfl
  rw [Memory.readBytes_length]
  omega

/-- Every cell after the draw (R133). -/
theorem drawSprite_cell (s : State) (x y n : Nibble) (r c : Nat) :
    (drawSprite s x y n).disp.cell r c = (s.disp.cell r c ^^ spritePixel s x y n r c) := by
  obtain ⟨hcells, -⟩ := Canvas.drawRows_spec (startColumn (s.reg x)) _ _ (drawnRows_fit s y n) ⟨s.disp, false⟩
  rw [drawSprite, hcells, spriteBit_eq_spritePixel]

/-- The collision after the draw (R133). -/
theorem drawSprite_hit_iff (s : State) (x y n : Nibble) : (drawSprite s x y n).hit = true ↔
    ∃ r c, spritePixel s x y n r c = true ∧ s.disp.cell r c = true := by
  obtain ⟨-, hhit⟩ := Canvas.drawRows_spec (startColumn (s.reg x)) _ _ (drawnRows_fit s y n) ⟨s.disp, false⟩
  simp only [drawSprite, hhit, spriteBit_eq_spritePixel, Bool.false_eq_true, false_or]

theorem drw_completes (h : ∀ k < n.toNat, Readable s k) :
    Completes (.drw x y n) s
      ((s.advancePc.setDisp (drawSprite s x y n).disp).setReg 0xF (flagByte (drawSprite s x y n).hit)) :=
  completes_of_check_none rfl (readChecks_none_iff.2 h)
    (((frame_advancePc _ s).setDisp _ rfl).setReg (by simp [writesReg]))

/-- A drawn bit on a lit cell sets the collision. -/
theorem hit_of_lit (hp : spritePixel s x y n r c = true) (hlit : s.disp.cell r c = true) :
    flagByte (drawSprite s x y n).hit = 1 := by
  rw [(drawSprite_hit_iff s x y n).2 ⟨r, c, hp, hlit⟩]
  rfl

/-- Where no drawn bit meets a lit cell the collision stays clear. -/
theorem no_hit_of_unlit (h : ∀ r < 32, ∀ c < 64, spritePixel s x y n r c = true → s.disp.cell r c = false) :
    flagByte (drawSprite s x y n).hit = 0 := by
  have hno : ¬ (drawSprite s x y n).hit = true := by
    rw [drawSprite_hit_iff]
    rintro ⟨r, c, hp, hlit⟩
    obtain ⟨hr, hc⟩ := spritePixel_bounds hp
    exact Bool.false_ne_true ((h r hr c hc hp).symm.trans hlit)
  rw [Bool.eq_false_of_not_eq_true hno]
  rfl

/-- Settles O37: the display and the flag of the completed draw are those of the drawing loop. -/
theorem drawPaintsTheClippedSprite : Obligations.DrawPaintsTheClippedSprite := by
  intro s x y n h
  refine ⟨_, drw_completes h, rfl, fun r _ c _ => drawSprite_cell s x y n r c, ?collision, ?clear⟩ <;>
    rw [State.reg_setReg_self]
  case collision =>
    rintro ⟨r, -, c, -, hp, hlit⟩
    exact hit_of_lit hp hlit
  case clear => exact no_hit_of_unlit

/-- What a completed draw leaves in the display and in VF. -/
theorem drw_effect (h : ∀ k < n.toNat, Readable s k) (ht : exec (.drw x y n) s = .next t) :
    t.disp = (drawSprite s x y n).disp ∧ t.reg 0xF = flagByte (drawSprite s x y n).hit := by
  obtain ⟨he, -⟩ := drw_completes (x := x) (y := y) h
  rw [ht] at he
  cases he
  exact ⟨rfl, State.reg_setReg_self _ _ _⟩

/-- The picture depends on I, the sprite bytes and the coordinates alone (R138). -/
theorem spritePixel_congr (hi : u.i = s.i) (hmem : ∀ a, u.mem.read a = s.mem.read a) (hx : u.reg x = s.reg x)
    (hy : u.reg y = s.reg y) : spritePixel u x y n r c = spritePixel s x y n r c := by
  simp only [spritePixel, hx, hy, hmem, effAddr_congr hi]

/-- Settles O38: the second draw XORs the same picture, and meets the bits the first one lit. -/
theorem drawingTwiceRestores : Obligations.DrawingTwiceRestores := by
  intro s t u w x y n h ht hdisp hi hmem hx hy hw
  have hu : ∀ k < n.toNat, Readable u k := by
    intro k hk
    rw [Readable, effAddr_congr hi]
    exact h k hk
  obtain ⟨htdisp, htflag⟩ := drw_effect h ht
  obtain ⟨hwdisp, hwflag⟩ := drw_effect hu hw
  have hpic : ∀ r c, spritePixel u x y n r c = spritePixel s x y n r c :=
    fun r c => spritePixel_congr hi hmem hx hy
  have hbetween : ∀ r c, u.disp.cell r c = (s.disp.cell r c ^^ spritePixel s x y n r c) := by
    intro r c
    rw [hdisp, htdisp, drawSprite_cell]
  refine ⟨?restored, ?flags⟩
  case restored =>
    intro r _ c _
    rw [hwdisp, drawSprite_cell, hpic, hbetween, Bool.xor_assoc, Bool.xor_self, Bool.xor_false]
  case flags =>
    rintro hunlit ⟨r, hr, c, hc, hp⟩
    have hlit : u.disp.cell r c = true := by rw [hbetween, hunlit r hr c hc hp, hp, Bool.false_xor]
    exact ⟨htflag.trans (no_hit_of_unlit hunlit), hwflag.trans (hit_of_lit ((hpic r c).trans hp) hlit)⟩

end Sys2Proof.Machine
end

section
/-! What an instruction and a step can answer: the fault of a failed check, or a completion within the frame. The
frames, the writers of each piece of state (10_state.md R20 to R36) and the faults (60_exceptions.md R200 to R205) follow. -/

namespace Sys2Proof.Machine

variable {i : Instr} {s t u : State} {f : FaultInfo} {r : FaultRecord} {k n : Nat}

/-! ### One instruction -/

/-- Every instruction whose check passes runs. -/
theorem exists_completes (h : checkOf i s = none) : ∃ t, Completes i s t := by
  cases i with
  | cls => exact ⟨_, cls_completes s⟩
  | ret => exact ⟨_, ret_completes (checkPop_none_iff.1 h)⟩
  | jp nnn => exact ⟨_, jp_completes s nnn⟩
  | call nnn => exact ⟨_, call_completes (checkPush_none_iff.1 h)⟩
  | seByte x nn => exact ⟨_, seByte_completes s x nn⟩
  | sneByte x nn => exact ⟨_, sneByte_completes s x nn⟩
  | seReg x y => exact ⟨_, seReg_completes s x y⟩
  | ldByte x nn => exact ⟨_, ldByte_completes s x nn⟩
  | addByte x nn => exact ⟨_, addByte_completes s x nn⟩
  | ldReg x y => exact ⟨_, ldReg_completes s x y⟩
  | orReg x y => exact ⟨_, orReg_completes s x y⟩
  | andReg x y => exact ⟨_, andReg_completes s x y⟩
  | xorReg x y => exact ⟨_, xorReg_completes s x y⟩
  | addReg x y => exact ⟨_, addReg_completes s x y⟩
  | subReg x y => exact ⟨_, subReg_completes s x y⟩
  | shr x y => exact ⟨_, shr_completes s x y⟩
  | subn x y => exact ⟨_, subn_completes s x y⟩
  | shl x y => exact ⟨_, shl_completes s x y⟩
  | sneReg x y => exact ⟨_, sneReg_completes s x y⟩
  | ldI nnn => exact ⟨_, ldI_completes s nnn⟩
  | jpV0 nnn => exact ⟨_, jpV0_completes s nnn⟩
  | rnd x nn => exact ⟨_, rnd_completes s x nn⟩
  | drw x y n => exact ⟨_, drw_completes (readChecks_none_iff.1 h)⟩
  | skp x => exact ⟨_, skp_completes (checkKey_none_iff.1 h)⟩
  | sknp x => exact ⟨_, sknp_completes (checkKey_none_iff.1 h)⟩
  | ldVxDT x => exact ⟨_, ldVxDT_completes s x⟩
  | ldVxK x =>
    cases hk : s.lowestKey with
    | none => exact ⟨_, ldVxK_completes_of_no_key hk⟩
    | some k => exact ⟨_, ldVxK_completes_of_key hk⟩
  | ldDTVx x => exact ⟨_, ldDTVx_completes s x⟩
  | ldSTVx x => exact ⟨_, ldSTVx_completes s x⟩
  | addI x => exact ⟨_, addI_completes s x⟩
  | ldF x => exact ⟨_, ldF_completes s x⟩
  | ldB x => exact ⟨_, ldB_completes (writeChecks_none_iff.1 h)⟩
  | storeRegs x => exact ⟨_, storeRegs_completes (writeChecks_none_iff.1 h)⟩
  | loadRegs x => exact ⟨_, loadRegs_completes (readChecks_none_iff.1 h)⟩

/-- Everything an instruction can answer. -/
theorem exec_next_cases (h : exec i s = .next t) :
    (∃ f, checkOf i s = some f ∧ t = s.takeFault (some (encode i)) f) ∨
      (checkOf i s = none ∧ Completes i s t) := by
  cases hc : checkOf i s with
  | some f =>
    rw [exec_of_check_some hc] at h
    cases h
    exact .inl ⟨f, rfl, rfl⟩
  | none =>
    obtain ⟨u, hu, hframe⟩ := exists_completes hc
    rw [h] at hu
    cases hu
    exact .inr ⟨rfl, h, hframe⟩

theorem faultTaken_takeFault (s : State) (w : Option Word) (f : FaultInfo) : FaultTaken s (s.takeFault w f) :=
  ⟨_, rfl⟩

/-- What a completed instruction does not name it leaves as it was. -/
theorem Completes.same {p : Part} (h : Completes i s t) (hp : ¬ writesPart i p = true) : p.same s t := by
  obtain ⟨-, hparts, -, -⟩ := h
  exact hparts p (Bool.eq_false_of_not_eq_true hp)

/-- The frame of every instruction. -/
theorem exec_frame (h : exec i s = .next t) : FaultTaken s t ∨ Frame i s t := by
  obtain ⟨f, -, rfl⟩ | ⟨-, -, hframe⟩ := exec_next_cases h
  · exact .inl (faultTaken_takeFault _ _ _)
  · exact .inr hframe

/-- Settles O23: a case of the frame of every instruction. -/
theorem registerFormsFrame : Obligations.RegisterFormsFrame := fun _ _ _ _ h => exec_frame h

/-- Settles O24: a case of the frame of every instruction, whose bytes are counted by `storeWidth`. -/
theorem storingFormsFrame : Obligations.StoringFormsFrame := fun _ _ _ _ h => exec_frame h

/-- Settles O26: a case of the frame of every instruction. -/
theorem displayFormsFrame : Obligations.DisplayFormsFrame := fun _ _ _ _ h => exec_frame h

/-- Settles O25: beyond the frame, a push writes one entry and a pop none. -/
theorem stackFormsFrame : Obligations.StackFormsFrame := by
  intro i s t hi h
  obtain ⟨f, -, rfl⟩ | ⟨hc, hcomp⟩ := exec_next_cases h
  · exact .inl (faultTaken_takeFault _ _ _)
  · refine .inr ⟨hcomp.2, fun j hj => ?_⟩
    cases i with
    | ret => rw [show t.stk = s.stk from hcomp.same (p := .stk) (by decide)]
    | call nnn =>
      obtain ⟨-, hstk⟩ := call_stack (checkPush_none_iff.1 hc) h
      rw [hstk, if_neg hj]
    | _ => cases hi

/-- Settles O28: VF changes only where the frame lets register 15 change. -/
theorem onlyFlagWritersWriteVF : Obligations.OnlyFlagWritersWriteVF := by
  intro i s t h hne
  have hw : writesReg i 0xF = true := by
    obtain ⟨r, rfl⟩ | ⟨-, hregs, -⟩ := exec_frame h
    · exact absurd rfl hne
    · by_contra hno
      exact hne (hregs 0xF (Bool.eq_false_of_not_eq_true hno))
  clear h hne
  cases i
  case loadRegs x =>
    have hx : x = 0xF := by
      have hlt := x.isLt
      have hle : 15 ≤ x.toNat := of_decide_eq_true hw
      exact BitVec.eq_of_toNat_eq (show x.toNat = 15 by omega)
    simp [hx]
  all_goals simp_all [writesReg]

/-! ### One step -/

/-- The three causes of a fault in a step, with the word and the info the record takes (R200, R202). -/
inductive Raises (s : State) : Option Word → FaultInfo → Prop
  | fetch {f : FaultInfo} (hw : s.fetch = .error f) : Raises s none f
  | decode {w : Word} {e : DecodeReject} (hw : s.fetch = .ok w) (hd : decode w = .error e) :
      Raises s (some w) decodeFault
  | check {i : Instr} {f : FaultInfo} (hi : Fetches s i) (hc : checkOf i s = some f) : Raises s (some (encode i)) f

/-- Everything a step can answer with a next state: a fault taken, or an instruction completed and the cycle ended. -/
theorem step_cases (h : step s = .next t) :
    s.fault = none ∧ ((∃ w f, Raises s w f ∧ t = s.takeFault w f) ∨
      ∃ i u, Fetches s i ∧ checkOf i s = none ∧ Completes i s u ∧ t = u.decay) := by
  obtain ⟨hs, ⟨f, hw, rfl⟩ | ⟨w, e, hw, hd, rfl⟩ | ⟨i, u, hi, hu, rfl⟩⟩ := step_next_cases s t h
  · exact ⟨hs, .inl ⟨_, _, .fetch hw, rfl⟩⟩
  · exact ⟨hs, .inl ⟨_, _, .decode hw hd, rfl⟩⟩
  · obtain ⟨f, hc, rfl⟩ | ⟨hc, hcomp⟩ := exec_next_cases hu
    · exact ⟨hs, .inl ⟨_, _, .check hi hc, State.decay_of_fault _ _ rfl⟩⟩
    · exact ⟨hs, .inr ⟨i, u, hi, hc, hcomp, rfl⟩⟩

theorem writesPart_fault (i : Instr) : writesPart i .fault = false := by
  cases i <;> rfl

/-- A completed instruction leaves the fault status alone (R34). -/
theorem Completes.fault_eq (h : Completes i s t) : t.fault = s.fault :=
  h.same (p := .fault) (by rw [writesPart_fault]; exact Bool.false_ne_true)

/-- A step that leaves a record took a fault, and the record is that fault's. -/
theorem step_raises (hs : s.fault = none) (h : step s = .next t) (hr : t.fault = some r) :
    ∃ w f, Raises s w f ∧ t = s.takeFault w f ∧ r = ⟨f.code, s.pc, w, f.addr⟩ := by
  obtain ⟨-, ⟨w, f, hf, rfl⟩ | ⟨i, u, -, -, hcomp, rfl⟩⟩ := step_cases h
  · exact ⟨w, f, hf, rfl, (Option.some.inj hr).symm⟩
  · rw [State.decay_fault, hcomp.fault_eq, hs] at hr
    cases hr

/-- Settles O11: taking a fault is the one way to leave a record, and it writes the fault status alone. -/
theorem faultingStepsArePrecise : Obligations.FaultingStepsArePrecise := by
  intro s t r hs h hr
  obtain ⟨w, f, -, rfl, rfl⟩ := step_raises hs h hr
  exact ⟨rfl, rfl⟩

/-- A part that a step changes is named by the instruction it runs, but for pc, the timers and the fault status. -/
theorem writesPart_of_step {p : Part} (h : step s = .next t) (hfault : ∀ w f, p.same s (s.takeFault w f))
    (hdecay : ∀ u : State, p.same u u.decay) (hp : ¬ p.same s t) : ∃ i, Fetches s i ∧ writesPart i p = true := by
  obtain ⟨-, ⟨w, f, -, rfl⟩ | ⟨i, u, hi, -, hcomp, rfl⟩⟩ := step_cases h
  · exact absurd (hfault w f) hp
  · refine ⟨i, hi, ?_⟩
    by_contra hno
    exact hp (Part.same_trans (hcomp.same hno) (hdecay u))

theorem writesPart_i (h : writesPart i .i = true) :
    (∃ nnn, i = .ldI nnn) ∨ (∃ x, i = .addI x) ∨ ∃ x, i = .ldF x := by
  cases i <;> simp_all [writesPart]

theorem writesPart_stack (h : writesPart i .sp = true ∨ writesPart i .stk = true) :
    i = .ret ∨ ∃ nnn, i = .call nnn := by
  cases i <;> simp_all [writesPart]

theorem writesPart_disp (h : writesPart i .disp = true) : i = .cls ∨ ∃ x y n, i = .drw x y n := by
  cases i <;> simp_all [writesPart]

theorem writesPart_paused (h : writesPart i .paused = true) : ∃ x, i = .ldVxK x := by
  cases i <;> simp_all [writesPart]

theorem writesPart_key (i : Instr) : writesPart i .key = false := by
  cases i <;> rfl

/-- Settles O27: each part is changed only by the instructions that name it. -/
theorem onlyNamedInstrsWrite : Obligations.OnlyNamedInstrsWrite := by
  intro s t h
  refine ⟨fun hne => ?index, fun hne => ?stack, fun hne => ?display, fun hne => ?paused, ?key⟩
  case index =>
    obtain ⟨i, hi, hw⟩ := writesPart_of_step (p := .i) h (fun _ _ => rfl) State.decay_i hne
    exact ⟨i, hi, writesPart_i hw⟩
  case stack =>
    rcases hne with hne | hne
    · obtain ⟨i, hi, hw⟩ := writesPart_of_step (p := .sp) h (fun _ _ => rfl) State.decay_sp hne
      exact ⟨i, hi, writesPart_stack (.inl hw)⟩
    · obtain ⟨i, hi, hw⟩ := writesPart_of_step (p := .stk) h (fun _ _ => rfl) State.decay_stk hne
      exact ⟨i, hi, writesPart_stack (.inr hw)⟩
  case display =>
    obtain ⟨i, hi, hw⟩ := writesPart_of_step (p := .disp) h (fun _ _ => rfl) State.decay_disp hne
    exact ⟨i, hi, writesPart_disp hw⟩
  case paused =>
    obtain ⟨i, hi, hw⟩ := writesPart_of_step (p := .paused) h (fun _ _ => rfl) State.decay_paused hne
    obtain ⟨x, rfl⟩ := writesPart_paused hw
    exact ⟨x, hi⟩
  case key =>
    by_contra hne
    obtain ⟨i, -, hw⟩ := writesPart_of_step (p := .key) h (fun _ _ => rfl) State.decay_key hne
    exact Bool.false_ne_true ((writesPart_key i).symm.trans hw)

/-! ### The causes of each fault -/

/-- A failing read check from I up names the first byte past memory. -/
theorem readChecks_some (h : firstFault checkRead (effAddr s 0) n = some f) :
    ∃ k < n, 4096 ≤ effAddr s k ∧ f = ⟨.addressOutOfRange, some (effAddr s k)⟩ := by
  obtain ⟨k, hk, hf, -⟩ := (firstFault_some_iff _ _ _ _).1 h
  rw [effAddr_add] at hf
  exact ⟨k, hk, checkRead_some _ _ hf⟩

/-- A failing write check from I up names the first byte that may not be written. -/
theorem writeChecks_some (h : firstFault checkWrite (effAddr s 0) n = some f) :
    ∃ k < n, (4096 ≤ effAddr s k ∧ f = ⟨.addressOutOfRange, some (effAddr s k)⟩) ∨
      ((0x050 ≤ effAddr s k ∧ effAddr s k ≤ 0x09F) ∧ f = ⟨.glyphWrite, some (effAddr s k)⟩) := by
  obtain ⟨k, hk, hf, -⟩ := (firstFault_some_iff _ _ _ _).1 h
  rw [effAddr_add] at hf
  exact ⟨k, hk, checkWrite_some _ _ hf⟩

/-- A fetch that faults names the first of its addresses that is past memory. -/
theorem fetch_error_info (h : s.fetch = .error f) : 4096 ≤ s.pc.toNat + 1 ∧
    ∃ a, f = ⟨.addressOutOfRange, some a⟩ ∧ 4096 ≤ a ∧ (a = s.pc.toNat ∨ a = s.pc.toNat + 1) := by
  have hpc : 4096 ≤ s.pc.toNat + 1 := by
    by_contra hlt
    rw [State.fetch_ok s (by omega)] at h
    cases h
  rw [State.fetch_error s hpc] at h
  cases h
  refine ⟨hpc, _, rfl, ?_⟩
  split <;> simp_all

/-- Settles O12: by the cause of the fault, and for a failed check by the instruction that makes it. -/
theorem faultRecordsNameTheirCause : Obligations.FaultRecordsNameTheirCause := by
  intro s t r hs h hr
  obtain ⟨w, f, hcause, -, rfl⟩ := step_raises hs h hr
  cases hcause with
  | fetch hw =>
    obtain ⟨hpc, a, rfl, ha, heq⟩ := fetch_error_info hw
    exact .inl ⟨rfl, hpc, a, rfl, ha, heq⟩
  | decode hw hd => exact ⟨_, hw, decode_error_iff.1 ⟨_, hd⟩, rfl, rfl⟩
  | @check i _ hi hc =>
    cases i
    case ret =>
      obtain ⟨hsp, rfl⟩ := checkPop_some hc
      exact ⟨hi, hsp, rfl, rfl⟩
    case call nnn =>
      obtain ⟨hsp, rfl⟩ := checkPush_some hc
      exact ⟨nnn, hi, hsp, rfl, rfl⟩
    case skp x =>
      obtain ⟨hx, rfl⟩ := checkKey_some hc
      exact ⟨_, x, hi, .inl rfl, hx, rfl, rfl⟩
    case sknp x =>
      obtain ⟨hx, rfl⟩ := checkKey_some hc
      exact ⟨_, x, hi, .inr rfl, hx, rfl, rfl⟩
    case drw x y n =>
      obtain ⟨k, hk, ha, rfl⟩ := readChecks_some hc
      exact .inr ⟨_, k, hi, rfl, rfl, ha, .inl ⟨x, y, n, rfl, hk⟩⟩
    case loadRegs x =>
      obtain ⟨k, hk, ha, rfl⟩ := readChecks_some hc
      exact .inr ⟨_, k, hi, rfl, rfl, ha, .inr (.inr (.inr ⟨x, rfl, Nat.le_of_lt_succ hk⟩))⟩
    case ldB x =>
      obtain ⟨k, hk, ⟨ha, rfl⟩ | ⟨⟨hlo, hhi⟩, rfl⟩⟩ := writeChecks_some hc
      · exact .inr ⟨_, k, hi, rfl, rfl, ha, .inr (.inl ⟨x, rfl, hk⟩)⟩
      · exact ⟨_, k, hi, rfl, rfl, hlo, hhi, .inl ⟨x, rfl, hk⟩⟩
    case storeRegs x =>
      obtain ⟨k, hk, ⟨ha, rfl⟩ | ⟨⟨hlo, hhi⟩, rfl⟩⟩ := writeChecks_some hc
      · exact .inr ⟨_, k, hi, rfl, rfl, ha, .inr (.inr (.inl ⟨x, rfl, Nat.le_of_lt_succ hk⟩))⟩
      · exact ⟨_, k, hi, rfl, rfl, hlo, hhi, .inr ⟨x, rfl, Nat.le_of_lt_succ hk⟩⟩
    all_goals cases hc

/-- The first byte that fails its check decides the fault (R205). -/
theorem firstFault_of_first {check : Nat → Option FaultInfo} (hk : k < n)
    (hbefore : ∀ j < k, check (effAddr s j) = none) (hf : check (effAddr s k) = some f) :
    firstFault check (effAddr s 0) n = some f := by
  rw [firstFault_some_iff]
  exact ⟨k, hk, by rwa [effAddr_add], fun j hj => by rw [effAddr_add, hbefore j hj]⟩

theorem checkRead_of_not_readable (h : ¬ Readable s k) :
    checkRead (effAddr s k) = some ⟨.addressOutOfRange, some (effAddr s k)⟩ := if_neg h

theorem checkWrite_of_not_writable (h : ¬ Writable s k) : checkWrite (effAddr s k) =
    some ⟨if 4096 ≤ effAddr s k then .addressOutOfRange else .glyphWrite, some (effAddr s k)⟩ := by
  rw [writable_iff] at h
  obtain ⟨f, hf⟩ := Option.ne_none_iff_exists'.1 h
  rw [hf]
  obtain ⟨ha, rfl⟩ | ⟨⟨-, ha⟩, rfl⟩ := checkWrite_some _ _ hf
  · rw [if_pos ha]
  · rw [if_neg (by omega)]

/-- Fx33 and Fx55 check the bytes they store. -/
theorem checkOf_storing (hi : shapeOf i = .storing) :
    checkOf i s = firstFault checkWrite (effAddr s 0) (storeWidth i) := by
  cases i
  case ldB | storeRegs => rfl
  all_goals cases hi

/-- Settles O53: the bytes checked are the bytes stored, in ascending order. -/
theorem storesTrapAtFirstBadByte : Obligations.StoresTrapAtFirstBadByte := by
  intro i s k hi hk hbefore hbad
  refine exec_of_check_some ((checkOf_storing hi).trans (firstFault_of_first hk ?_ (checkWrite_of_not_writable hbad)))
  exact fun j hj => (writable_iff s j).1 (hbefore j hj)

/-- Settles O54: the check runs over all n sprite bytes, drawn or clipped (R135). -/
theorem readsTrapAtFirstBadByte : Obligations.ReadsTrapAtFirstBadByte := by
  intro s k hbefore hbad
  have hpass : ∀ j < k, checkRead (effAddr s j) = none := fun j hj => (readable_iff s j).1 (hbefore j hj)
  have hfirst : ∀ n, k < n → firstFault checkRead (effAddr s 0) n = some ⟨.addressOutOfRange, some (effAddr s k)⟩ :=
    fun n hk => firstFault_of_first hk hpass (checkRead_of_not_readable hbad)
  exact ⟨fun x y n hk => exec_of_check_some (i := .drw x y n) (hfirst _ hk),
    fun x hk => exec_of_check_some (i := .loadRegs x) (hfirst _ (Nat.lt_succ_of_le hk))⟩

end Sys2Proof.Machine
end

section
/-! The invariants of every cycle (10_state.md R25, R33, R38; 20_memory.md R50, R54): what an instruction can do to
memory, to pc and the stack, and to paused, then each invariant over a step and at reset. -/

namespace Sys2Proof.Machine

variable {i : Instr} {s t u : State}

/-! ### Memory -/

/-- Everything an instruction can do to memory: store bytes from I up, each of which may be written. -/
theorem exec_mem (h : exec i s = .next t) :
    ∃ bs : List Byte, (∀ k < bs.length, Writable s k) ∧ t.mem = s.mem.writeBytes (effAddr s 0) bs := by
  have hkept : t.mem = s.mem → ∃ bs : List Byte, (∀ k < bs.length, Writable s k) ∧
      t.mem = s.mem.writeBytes (effAddr s 0) bs := fun hm => ⟨[], fun k hk => absurd hk (Nat.not_lt_zero k), hm⟩
  cases i
  case ldB x =>
    obtain ⟨f, -, rfl⟩ | ⟨hc, rfl⟩ := guarded_next _ _ _ _ _ h
    · exact hkept rfl
    · exact ⟨decimalDigits (s.reg x), writeChecks_none_iff.1 hc, rfl⟩
  case storeRegs x =>
    obtain ⟨f, -, rfl⟩ | ⟨hc, rfl⟩ := guarded_next _ _ _ _ _ h
    · exact hkept rfl
    · refine ⟨_, ?_, rfl⟩
      rw [State.regsUpTo_length]
      exact writeChecks_none_iff.1 hc
  case ret | call | drw | skp | sknp | loadRegs =>
    obtain ⟨f, -, rfl⟩ | ⟨-, rfl⟩ := guarded_next _ _ _ _ _ h
    all_goals exact hkept (by simp)
  case ldVxK x =>
    simp only [exec, execLdVxK] at h
    split at h <;> cases h
    all_goals exact hkept (by simp)
  all_goals
    cases h
    exact hkept (by simp)

/-- Everything a step can do to memory. -/
theorem step_mem (h : step s = .next t) :
    ∃ bs : List Byte, (∀ k < bs.length, Writable s k) ∧ t.mem = s.mem.writeBytes (effAddr s 0) bs := by
  obtain ⟨-, ⟨w, f, -, rfl⟩ | ⟨i, u, -, -, ⟨he, -⟩, rfl⟩⟩ := step_cases h
  · exact ⟨[], fun k hk => absurd hk (Nat.not_lt_zero k), rfl⟩
  · rw [State.decay_mem]
    exact exec_mem he

/-- An address from I up, by its distance from I. -/
theorem effAddr_sub {a : Nat} (h : effAddr s 0 ≤ a) : effAddr s (a - effAddr s 0) = a := by
  rw [← effAddr_add, Nat.add_sub_cancel' h]

/-- Settles O18: the bytes stored keep the canonical form, and lie where a store may write. -/
theorem stepKeepsMemoryInv : Obligations.StepKeepsMemoryInv := by
  rintro s t ⟨hwf, hlist⟩ h
  obtain ⟨bs, hbs, hmem⟩ := step_mem h
  refine ⟨?canonical, fun c hc => ?listed⟩
  case canonical =>
    rw [hmem]
    exact Memory.writeBytes_wf _ _ _ hwf
  case listed =>
    rw [hmem] at hc
    obtain ⟨hlo, hhi⟩ | hold := Memory.mem_writeBytes _ _ _ _ hc
    · have hw := hbs (c.1 - effAddr s 0) (by omega)
      rw [writable_iff, checkWrite_none_iff, effAddr_sub hlo] at hw
      exact hw
    · exact hlist c hold

/-- Settles O22: a byte that may be written is not in the glyph table. -/
theorem glyphTableIsReadOnly : Obligations.GlyphTableIsReadOnly := by
  intro s t h a hlo hhi
  obtain ⟨bs, hbs, hmem⟩ := step_mem h
  rw [hmem, Memory.read_writeBytes, if_neg]
  rintro ⟨hge, hlt⟩
  obtain ⟨-, hglyph⟩ := hbs (a - effAddr s 0) (by omega)
  rw [effAddr_sub hge] at hglyph
  exact hglyph ⟨hlo, hhi⟩

/-! ### The program counter and the return addresses -/

/-- The instructions that set pc to a target: the others stay, advance by 2 or skip. -/
def setsPc (i : Instr) : Bool :=
  match i with
  | .ret => true
  | .jp _ => true
  | .call _ => true
  | .jpV0 _ => true
  | _ => false

theorem skip_pc_cases (s : State) (c : Bool) :
    (s.advancePc.skipIf c).pc = s.pc ∨ (s.advancePc.skipIf c).pc = s.pc + 2 ∨
      (s.advancePc.skipIf c).pc = s.pc + 4 := by
  rw [advancePc_skipIf_pc]
  cases c
  · exact .inr (.inl rfl)
  · exact .inr (.inr rfl)

/-- Where an instruction without a target leaves pc (R90, R141, R163). -/
theorem exec_pc_of_not_setsPc (hi : setsPc i = false) (h : exec i s = .next t) :
    t.pc = s.pc ∨ t.pc = s.pc + 2 ∨ t.pc = s.pc + 4 := by
  cases i
  case ret | jp | call | jpV0 => cases hi
  case seByte | sneByte | seReg | sneReg =>
    cases h
    exact skip_pc_cases s _
  case skp | sknp =>
    obtain ⟨f, -, rfl⟩ | ⟨-, rfl⟩ := guarded_next _ _ _ _ _ h
    · exact .inl rfl
    · exact skip_pc_cases s _
  case drw | ldB | storeRegs | loadRegs =>
    obtain ⟨f, -, rfl⟩ | ⟨-, rfl⟩ := guarded_next _ _ _ _ _ h
    · exact .inl rfl
    · exact .inr (.inl (by simp))
  case ldVxK x =>
    simp only [exec, execLdVxK] at h
    split at h <;> cases h
    · exact .inr (.inl rfl)
    · exact .inl (advance_rewind s.pc)
  all_goals
    cases h
    exact .inr (.inl rfl)

/-- Up to the last fetch address the advances of pc do not wrap (R25). -/
theorem advances_toNat {a : Word} (h : a.toNat + 1 < 4096) :
    (a + 2).toNat = a.toNat + 2 ∧ (a + 4).toNat = a.toNat + 4 := by
  constructor <;> bv_omega

/-- Where a completed instruction that was fetched leaves pc (R25). -/
theorem Completes.pc_le (h : Completes i s t) (hc : checkOf i s = none) (hpc : s.pc.toNat + 1 < 4096)
    (hstk : ∀ j : Fin 32, j.val < s.sp.val → s.stk[j].toNat ≤ 0x1000) : t.pc.toNat ≤ 0x10FE := by
  obtain ⟨he, -⟩ := h
  cases hi : setsPc i with
  | false =>
    obtain ⟨hadd2, hadd4⟩ := advances_toNat hpc
    obtain heq | heq | heq := exec_pc_of_not_setsPc hi he <;> rw [heq] <;> omega
  | true =>
    cases i
    case ret =>
      have hpos := checkPop_none_iff.1 hc
      have hle := s.sp_le
      have htop : s.top.toNat ≤ 0x1000 := hstk ⟨s.sp.val - 1, by omega⟩ (Nat.sub_lt hpos Nat.one_pos)
      rw [(ret_effect hpos he).2]
      exact htop.trans (by decide)
    case jp nnn =>
      cases he
      rw [State.setPc_pc, zextAddr_toNat]
      have := nnn.isLt
      omega
    case call nnn =>
      have hcall := (call_completes (nnn := nnn) (checkPush_none_iff.1 hc)).1
      rw [he] at hcall
      cases hcall
      rw [State.setPc_pc, zextAddr_toNat]
      have := nnn.isLt
      omega
    case jpV0 nnn =>
      cases he
      rw [State.setPc_pc, indexedTarget_toNat]
      have := nnn.isLt
      have := (s.reg 0).isLt
      omega
    all_goals cases hi

/-- The return addresses in use after a completed instruction that was fetched: a call pushes one more, a return gives
one up, and no other instruction touches the stack (R27). -/
theorem Completes.stack_le (h : Completes i s t) (hc : checkOf i s = none) (hpc : s.pc.toNat + 1 < 4096)
    (hstk : ∀ j : Fin 32, j.val < s.sp.val → s.stk[j].toNat ≤ 0x1000) (j : Fin 32) (hj : j.val < t.sp.val) :
    t.stk[j].toNat ≤ 0x1000 := by
  have he := h.1
  by_cases hi : i = .ret ∨ ∃ nnn, i = .call nnn
  case neg =>
    have hsp : t.sp = s.sp := h.same (p := .sp) fun hw => hi (writesPart_stack (.inl hw))
    have hent : t.stk = s.stk := h.same (p := .stk) fun hw => hi (writesPart_stack (.inr hw))
    rw [hsp] at hj
    rw [hent]
    exact hstk j hj
  case pos =>
    obtain rfl | ⟨nnn, rfl⟩ := hi
    · obtain ⟨hsp, -⟩ := ret_effect (checkPop_none_iff.1 hc) he
      rw [hsp, State.pop_sp] at hj
      rw [show t.stk = s.stk from h.same (p := .stk) (by decide)]
      exact hstk j (by omega)
    · obtain ⟨hsp, hentry⟩ := call_stack (checkPush_none_iff.1 hc) he
      rw [hentry]
      split
      · obtain ⟨hadd, -⟩ := advances_toNat hpc
        rw [hadd]
        omega
      · exact hstk j (by omega)

/-- Settles O19: a step that runs an instruction fetched it below 0xFFF, and a step that faults moves neither pc nor the
stack. -/
theorem stepKeepsPcInv : Obligations.StepKeepsPcInv := by
  rintro s t ⟨hpc, hstk⟩ h
  obtain ⟨-, ⟨w, f, -, rfl⟩ | ⟨i, u, ⟨w, hw, -⟩, hc, hcomp, rfl⟩⟩ := step_cases h
  · exact ⟨hpc, hstk⟩
  · have hfetched := State.fetch_ok_bound s w hw
    rw [PcInv, State.decay_pc, State.decay_sp, State.decay_stk]
    exact ⟨hcomp.pc_le hc hfetched hstk, hcomp.stack_le hc hfetched hstk⟩

/-! ### The key wait -/

/-- An Fx0A that leaves paused set has gone back to its own address (R163). -/
theorem ldVxK_of_paused {x : Nibble} (h : exec (.ldVxK x) s = .next t) (hp : t.paused = true) :
    t.pc = s.pc ∧ t.mem = s.mem := by
  simp only [exec, execLdVxK] at h
  split at h <;> cases h
  · cases hp
  · exact ⟨advance_rewind s.pc, rfl⟩

/-- Settles O20: an Fx0A that pauses stays at itself, and where paused was set the step runs the Fx0A that set it. -/
theorem stepKeepsKeyWaitInv : Obligations.StepKeepsKeyWaitInv := by
  intro s t hinv h hp
  obtain ⟨-, ⟨w, f, -, rfl⟩ | ⟨i, u, hi, -, hcomp, rfl⟩⟩ := step_cases h
  case inl =>
    obtain ⟨x, hx⟩ := hinv hp
    exact ⟨x, hx.congr rfl rfl⟩
  case inr =>
    rw [State.decay_paused] at hp
    have hwait : ∃ x, i = .ldVxK x := by
      by_cases hw : writesPart i .paused = true
      · exact writesPart_paused hw
      · have hsame : u.paused = s.paused := hcomp.same hw
        obtain ⟨x, hx⟩ := hinv (hsame.symm.trans hp)
        exact ⟨x, Fetches.unique s _ _ hi hx⟩
    obtain ⟨x, rfl⟩ := hwait
    obtain ⟨hpc, hmem⟩ := ldVxK_of_paused hcomp.1 hp
    exact ⟨x, hi.congr (by rw [State.decay_pc, hpc]) (by rw [State.decay_mem, hmem])⟩

/-- Settles O21: memory lists nothing, no return address is in use and nothing is paused. -/
theorem resetMeetsInvariants : Obligations.ResetMeetsInvariants := by
  refine ⟨⟨rfl, fun c hc => ?mem⟩, ⟨by decide, fun j hj => ?stack⟩, fun hp => ?paused⟩
  case mem => cases hc
  case stack => exact absurd hj (Nat.not_lt_zero _)
  case paused => cases hp

end Sys2Proof.Machine
end

section
/-! The timers over whole cycles (10_state.md R29, R30; 60_exceptions.md R216; 70_reset_and_hazards.md R252). -/

namespace Sys2Proof.Machine

variable {i : Instr} {s t : State}

theorem writesPart_dt (h : writesPart i .dt = true) : ∃ x, i = .ldDTVx x := by
  cases i <;> simp_all [writesPart]

theorem writesPart_st (h : writesPart i .st = true) : ∃ x, i = .ldSTVx x := by
  cases i <;> simp_all [writesPart]

/-- Before the decay no other instruction than Fx15 has moved DT. -/
theorem Completes.dt_eq (h : Completes i s t) (hno : ¬ ∃ x, i = .ldDTVx x) : t.dt = s.dt :=
  h.same (p := .dt) fun hw => hno (writesPart_dt hw)

/-- Before the decay no other instruction than Fx18 has moved ST. -/
theorem Completes.st_eq (h : Completes i s t) (hno : ¬ ∃ x, i = .ldSTVx x) : t.st = s.st :=
  h.same (p := .st) fun hw => hno (writesPart_st hw)

/-- Settles O16: a fault moves no timer, and the decay of a completed instruction's timers only lowers them. -/
theorem timersOnlyFallBetweenWrites : Obligations.TimersOnlyFallBetweenWrites := by
  intro s t h
  obtain ⟨-, ⟨w, f, -, rfl⟩ | ⟨i, u, hi, -, hcomp, rfl⟩⟩ := step_cases h
  case inl => exact ⟨fun _ => le_rfl, fun _ => le_rfl⟩
  case inr =>
    refine ⟨fun hno => ?dt, fun hno => ?st⟩
    case dt =>
      have hdt : u.dt = s.dt := hcomp.dt_eq (by rintro ⟨x, rfl⟩; exact hno ⟨x, hi⟩)
      exact hdt ▸ u.decay_dt_le
    case st =>
      have hst : u.st = s.st := hcomp.st_eq (by rintro ⟨x, rfl⟩; exact hno ⟨x, hi⟩)
      exact hst ▸ u.decay_st_le

/-- What a step does to DT when it ends neither paused nor faulted: the instruction's own DT, one less (R216). -/
theorem step_dt (h : step s = .next t) (hp : t.paused = false) (hf : t.fault = none) :
    ∃ i u, Fetches s i ∧ Completes i s u ∧ t.dt.toNat = u.dt.toNat - 1 := by
  obtain ⟨-, ⟨w, f, -, rfl⟩ | ⟨i, u, hi, -, hcomp, rfl⟩⟩ := step_cases h
  · cases hf
  · rw [State.decay_paused] at hp
    rw [State.decay_fault] at hf
    refine ⟨i, u, hi, hcomp, ?_⟩
    rw [State.decay_of_running u hf hp]
    exact decrement_toNat u.dt

/-- The step of an Fx15 leaves the value it set, one less. -/
theorem step_dt_of_ldDTVx {x : Nibble} (h : step s = .next t) (hp : t.paused = false) (hf : t.fault = none)
    (hx : Fetches s (.ldDTVx x)) : t.dt.toNat = (s.reg x).toNat - 1 := by
  obtain ⟨i, u, hi, ⟨he, -⟩, hdt⟩ := step_dt h hp hf
  obtain rfl := Fetches.unique s _ _ hi hx
  cases he
  exact hdt

/-- Every other step leaves DT one less. -/
theorem step_dt_of_other (h : step s = .next t) (hp : t.paused = false) (hf : t.fault = none)
    (hno : ¬ ∃ x, Fetches s (.ldDTVx x)) : t.dt.toNat = s.dt.toNat - 1 := by
  obtain ⟨i, u, hi, hcomp, hdt⟩ := step_dt h hp hf
  rw [hdt, hcomp.dt_eq (by rintro ⟨x, rfl⟩; exact hno ⟨x, hi⟩)]

/-- Settles O17: by induction on the cycles DT is v less one for each, the first of them the Fx15's own. -/
theorem delayTimerReadBack : Obligations.DelayTimerReadBack := by
  intro f x y k hk hx hstep hno
  have hdt : ∀ j < k, (f (j + 1)).dt.toNat = ((f 0).reg x).toNat - (j + 1) := by
    intro j hj
    obtain ⟨hs, hp, hf⟩ := hstep j hj
    induction j with
    | zero => exact step_dt_of_ldDTVx hs hp hf hx
    | succ j ih =>
      obtain ⟨hs', hp', hf'⟩ := hstep j (by omega)
      rw [step_dt_of_other hs hp hf (hno (j + 1) (Nat.succ_pos j) hj), ih (by omega) hs' hp' hf', Nat.sub_sub]
  refine ⟨_, (ldVxDT_completes (f k) y).1, ?_⟩
  obtain ⟨j, rfl⟩ := Nat.exists_eq_add_one_of_ne_zero hk.ne'
  rw [State.reg_setReg_self]
  exact hdt j (Nat.lt_succ_self j)

end Sys2Proof.Machine
end

section
/-! The host's moves (60_exceptions.md R220 to R224, 70_reset_and_hazards.md R240 to R244): reset and what comes before
the first one, load, key events and the display snapshot. -/

namespace Sys2Proof.Machine

/-- A cell of a snapshot is off or on (R31). -/
theorem cellByte_eq_zero_or_one (b : Bool) : cellByte b = 0 ∨ cellByte b = 1 := by
  cases b
  · exact .inl rfl
  · exact .inr rfl

theorem powerOnSnapshot_length : powerOnSnapshot.length = 2048 := by
  simp [powerOnSnapshot]

theorem powerOnSnapshot_cell {b : Byte} (h : b ∈ powerOnSnapshot) : b = 0 ∨ b = 1 := by
  simp only [powerOnSnapshot, List.mem_flatMap, List.mem_map] at h
  obtain ⟨r, -, c, -, rfl⟩ := h
  exact cellByte_eq_zero_or_one _

/-- A reset outside a run gives the reset state, whether or not the core was reset before (R240, R241). -/
theorem move_reset (S : Session) (h : S.running = false) :
    ∃ t, S.move .reset = .next (⟨some t, false, false⟩, .nothing) ∧ t = { State.reset with draws := t.draws } := by
  cases hc : S.core with
  | none => exact ⟨State.reset, by simp [Session.move, hc], rfl⟩
  | some s => exact ⟨s.resetAgain, by simp [Session.move, Session.moveOn, hc, h], rfl⟩

/-- Settles O14: by the move, before the first reset; and the reset state, whose timers are 0. -/
theorem resetIsTheWayIn : Obligations.ResetIsTheWayIn := by
  refine ⟨fun m hreset hkey hread => ?refused, fun k down => rfl, ?snapshot, fun S hS => ?reset⟩
  case refused =>
    cases m
    case reset => exact absurd rfl hreset
    case keyEvent k down => exact absurd rfl (hkey k down)
    case readDisplay => exact absurd rfl hread
    all_goals rfl
  case snapshot => exact ⟨_, rfl, powerOnSnapshot_length, fun b => powerOnSnapshot_cell⟩
  case reset =>
    obtain ⟨t, hmove, ht⟩ := move_reset S hS
    exact ⟨t, hmove, by rw [ht]; rfl, by rw [ht]; rfl, ht⟩

/-- Settles O15: the bytes stored are the first 3584 of the source, from 0x200 up. -/
theorem loadPlacesTheProgram : Obligations.LoadPlacesTheProgram := by
  intro s source
  have hlen : (source.take 3584).length = min source.length 3584 := by rw [List.length_take, Nat.min_comm]
  refine ⟨s.mem.writeBytes 0x200 (source.take 3584), rfl, fun k b hk hb => ?placed, fun a ha => ?outside⟩
  case placed =>
    have hbound := (List.getElem?_eq_some_iff.1 hb).1
    rw [Memory.read_writeBytes, hlen, if_pos (by omega), Nat.add_sub_cancel_left, List.getElem?_take_of_lt hk, hb,
      Option.getD_some]
  case outside => rw [Memory.read_writeBytes, hlen, if_neg (by omega)]

/-- Settles O59: a key event is the same move whether or not a run is active. -/
theorem keyEventsWriteOneLatch : Obligations.KeyEventsWriteOneLatch := by
  intro S s k down hS
  refine ⟨s.setKey k down, by simp [Session.move, Session.moveOn, hS], rfl, ?own, fun j hj => ?others⟩
  case own => rw [State.keyHeld_setKey, if_pos rfl]
  case others => rw [State.keyHeld_setKey, if_neg hj]

/-- In lists of one length put together, place `r * n + c` is place `c` of list `r`. -/
theorem getElem?_flatMap_of_length {α β : Type} {l : List α} {g : α → List β} {n r c : Nat} {a : α}
    (hlen : ∀ b, (g b).length = n) (hr : l[r]? = some a) (hc : c < n) : (l.flatMap g)[r * n + c]? = (g a)[c]? := by
  induction l generalizing r with
  | nil => cases hr
  | cons b l ih =>
    rw [List.flatMap_cons]
    cases r with
    | zero =>
      obtain rfl : b = a := Option.some.inj hr
      rw [Nat.zero_mul, Nat.zero_add, List.getElem?_append_left (by rw [hlen]; exact hc)]
    | succ r =>
      have hplace : (r + 1) * n + c = n + (r * n + c) := by rw [Nat.succ_mul]; omega
      rw [hplace, List.getElem?_append_right (by rw [hlen]; omega), hlen, Nat.add_sub_cancel_left, ih hr]

/-- Inside the grid a cell is the entry of its row. -/
theorem Display.cell_of_lt (d : Display) {r c : Nat} (hr : r < 32) (hc : c < 64) : d.cell r c = d[r][c] :=
  dif_pos ⟨hr, hc⟩

/-- Settles O58: 32 rows of 64 bytes, put together in order. -/
theorem snapshotIsRowMajor : Obligations.SnapshotIsRowMajor := by
  intro s
  have hrow : ∀ row : Vector Bool 64, (row.toList.map cellByte).length = 64 := by simp
  refine ⟨?length, fun r hr c hc => ?cell⟩
  case length => simp [State.displayBuffer]
  case cell =>
    have hget : s.disp.toList[r]? = some s.disp[r] := by simp [hr]
    rw [State.displayBuffer, getElem?_flatMap_of_length hrow hget hc, Display.cell_of_lt _ hr hc]
    simp [hc, cellByte]

end Sys2Proof.Machine
end
